-- ==== Sys2Proof/Word.lean ====
section
/-! DEFINITION. The bit-vector types of the model (`00_scope.md` R14, R15). -/

namespace Sys2Proof

/-- A byte: the unit of addressing and the element of LD3B, `esize = 8` (R14, R40). -/
abbrev Byte := BitVec 8

/-- A 32-bit instruction word (R60). Bit 0 is the least significant bit (R15). -/
abbrev Word := BitVec 32

/-- A 64-bit quantity: general registers, the stack pointer, the program counter, every address (R14). -/
abbrev Dword := BitVec 64

end Sys2Proof
end

