-- ==== Sys2Proof/Config.lean ====
section
/-! DEFINITION. What the spec leaves to the implementation: the parameters of `00_scope.md` R7 to R13 as one plain
structure (`Params`), and the values it leaves free as constants with no body (`Config.…`). -/

namespace Sys2Proof

/-- `HaveSVE` and `HaveSME`, the answers of `IsFeatureImplemented(FEAT_SVE)` and `…(FEAT_SME)` (R8). -/
structure Features where
  sve : Bool
  sme : Bool
deriving DecidableEq, Repr

/-- At least one of the two features is implemented: the instruction exists (R2, R66). -/
def Features.available (f : Features) : Bool := f.sve || f.sme

/-- The outcome of `CheckSVEEnabled()` (R9): pass, or trap with a label `k` the spec keeps opaque (a routing target,
"undefined instruction", …; R102, R112). The number has no meaning of its own. -/
inductive SveOutcome where
  | pass
  | trap (k : Nat)
deriving DecidableEq, Repr

/-- The memory operation of an access descriptor. `MemOp_LOAD` is the only one the page names (R46). -/
inductive MemOp where
  | load
deriving DecidableEq, Repr

/-- The access descriptor that `CreateAccDescSVE` returns: its five visible fields (R46), none with a meaning of its own. -/
structure AccDesc where
  memOp : MemOp
  nontemporal : Bool
  contiguous : Bool
  predicated : Bool
  tagChecked : Bool
deriving DecidableEq, Repr

/-- The classification a failed access may carry (R47, R51, R104, R117): the names R104 lists, and `other` for whatever
else a platform distinguishes. The spec gives none of them an effect beyond the fault. -/
inductive FaultCause where
  | translation
  | accessFlag
  | permission
  | alignment
  | tagCheck
  | externalAbort
  | watchpoint
  | other (label : Nat)
deriving DecidableEq, Repr

/-- The information `f` of a data abort: at least the faulting address (R47, R104). -/
structure FaultInfo where
  addr : Dword
  cause : FaultCause
deriving DecidableEq, Repr

/-- A condition on the state, as plain data: how the parameters that are functions of the state (R9, R10, R12) say in which
states they answer what. `StateCond.holds` (Machine/Ops.lean) evaluates it. DESIGN CHOICE (log 1). -/
inductive StateCond where
  /-- every state -/
  | always
  /-- `pc` is in `lo`..`hi`, both included -/
  | pcIn (lo hi : Dword)
  /-- `sp` is in `lo`..`hi` -/
  | spIn (lo hi : Dword)
  /-- `x[n]` is in `lo`..`hi` -/
  | xIn (n : Fin 31) (lo hi : Dword)
  /-- bit `b` of `z[i]` is 1 -/
  | zBit (i : Fin 32) (b : Nat)
  /-- bit `b` of `p[g]` is 1 -/
  | pBit (g : Fin 8) (b : Nat)
  /-- the launch memory lists the byte `v` at `a` -/
  | memIs (a : Dword) (v : Byte)
  /-- at least `n` reads are in the event history -/
  | readsAtLeast (n : Nat)
  /-- the event history has a read of an address in `lo`..`hi` -/
  | hasRead (lo hi : Dword)
  /-- a condition that is left free: any function of what the state holds (`Config.freeCond k`) -/
  | free (k : Nat)
  /-- the condition does not hold -/
  | not (c : StateCond)
  /-- both conditions hold -/
  | and (c d : StateCond)
deriving DecidableEq, Repr

/-- One entry of the parameter `SveCheck` (R9): in the states where `cond` holds, `CheckSVEEnabled()` traps with `k`. -/
structure SveTrapRule where
  cond : StateCond
  k : Nat
deriving DecidableEq, Repr

/-- One entry of the parameter `MemFault` (R12) written as data: in the states where `cond` holds, every access to an address
in `lo`..`hi` (both included) under the descriptor `acc` (`none`: under any descriptor) faults with `cause`. DESIGN CHOICE
(log 24). -/
structure FaultRegion where
  cond : StateCond
  lo : Dword
  hi : Dword
  acc : Option AccDesc
  cause : FaultCause
deriving DecidableEq, Repr

/-- The parameters of the machine, R7 to R13. A step reads them and never changes them. Those that are functions of the
state are lists of conditions and answers, so that their answers change as the state does (log 1). -/
structure Params where
  /-- `VL`, the vector length in bits (R7); `PL = VL / 8`. -/
  vl : Nat
  /-- `HaveSVE`, `HaveSME` (R8). -/
  features : Features
  /-- `SveCheck` (R9): the first entry whose condition holds traps; with none, the check passes. -/
  sveCheck : List SveTrapRule
  /-- `SpAlignCheck` (R10): the states in which `CheckSPAlignment()` is armed. -/
  spAlignCheck : StateCond
  /-- `MemFault` (R12, R47): the first entry whose condition holds and that covers an access decides; with none, no fault. -/
  memFault : List FaultRegion
  /-- `TextBase` (R13). -/
  textBase : Dword
  /-- `Text` (R13, R55). -/
  text : List Word
deriving DecidableEq, Repr

/-- FREE VALUE (R11, U1; log 6): the answer of `ConstrainUnpredictableBool(Unpredictable_CHECKSPNONEACTIVE)` at the
execution whose index is `k`. It has no body: nothing can be proved of it. -/
opaque Config.checkSpNoneActive (k : Nat) : Bool

/-- FREE VALUE (R48, U8; log 5): the byte the unconstrained memory oracle answers at the execution whose index is `k`
for an address that the launch memory does not list. It has no body. -/
opaque Config.oracleByte (k : Nat) (addr : Dword) : Byte

/-- FREE VALUE (R107, U9; log 7): what the `r`-th destination register, `vl` bits wide, holds after the execution whose
index is `k` faulted. It has no body. -/
opaque Config.destAfterFault (k r vl : Nat) : BitVec vl

end Sys2Proof
end

