-- ==== Sys2Proof/Syntax.lean ====
section
/-! DEFINITION. The instruction set: one constructor, for the one row of `spec/opcode_table.json`. -/

namespace Sys2Proof

/-- The base register operand `<Xn|SP>`: a general register 0 to 30, or the stack pointer, which the field value 31
selects (`10_state.md` R20, R21; `30_encoding.md` R64). -/
inductive BaseReg where
  | x (n : Fin 31)
  | sp
deriving DecidableEq, Repr

/-- The instructions. -/
inductive Instr where
  /-- `LD3B { <Zt1>.B, <Zt2>.B, <Zt3>.B }, <Pg>/Z, [<Xn|SP>, <Xm>]` (R70): `zt`, `pg`, `rn`, `rm` are the decoded
  fields `t`, `g`, `n`, `m` (R63). `rm = 31` is ill-formed: it is an undefined instruction (R65). -/
  | ld3b (zt : Fin 32) (pg : Fin 8) (rn : BaseReg) (rm : Fin 32)
deriving DecidableEq, Repr

end Sys2Proof
end

