-- ==== Sys2Proof/WellFormed.lean ====
section
/-! DEFINITION. The well-formedness checks: of an instruction (R65), of the vector length (R7, U18) and of the
program (R13, R134). -/

namespace Sys2Proof

/-- An instruction is well formed when its index register is one of X0 to X30: "in particular there is no form of this
instruction with the zero register as index" (R65). -/
def Instr.wf : Instr → Bool
  | .ld3b _ _ _ rm => decide (rm ≠ 31)

/-- What the page itself forces on `VL`: a positive multiple of 8 (R7). A configuration that fails it is refused (U18). -/
def Params.vlUsable (p : Params) : Bool := decide (p.vl % 8 = 0 ∧ 0 < p.vl)

/-- The spec's well-formedness condition on `VL`: "VL mod 128 = 0 and 128 <= VL <= 2048" (R7, D2). -/
def Params.vlLegal (p : Params) : Bool := decide (p.vl % 128 = 0 ∧ 128 ≤ p.vl ∧ p.vl ≤ 2048)

/-- The conditions on a program (R134): `TextBase` is a multiple of 4 and the text does not wrap. -/
def Params.programWf (p : Params) : Bool :=
  decide (p.textBase.toNat % 4 = 0 ∧ p.textBase.toNat + 4 * p.text.length ≤ 2 ^ 64)

end Sys2Proof
end

