-- ==== Sys2Proof/Decode.lean ====
section
/-! DEFINITION. From words and bytes to instructions and back: the decoder (R62 to R68), the encoder (R61, R72), the
byte layout of a word (R42), the word the host's table numbers, and the assembler's operands (R70 to R72). -/

namespace Sys2Proof

/-! ## Decoding -/

/-- The fixed bits of the one row of the opcode table (R62). -/
def ld3bMask : Word := 0xFFE0E000#32

/-- The values of the fixed bits (R62). -/
def ld3bMatch : Word := 0xA440C000#32

/-- The decoder's verdict on a 32-bit word; there are exactly three (R67). -/
inductive Verdict where
  /-- the word is this instruction -/
  | instr (i : Instr)
  /-- the word spells an undefined instruction, `Decode_UNDEF` (R65, R66) -/
  | undefined
  /-- the word is outside the spec (R68) -/
  | notShown
deriving DecidableEq, Repr

/-- Field `Zt`, bits 4:0 (R61, R63). -/
def fieldZt (w : Word) : Fin 32 := (w.extractLsb' 0 5).toFin

/-- Field `Rn`, bits 9:5 (R61, R63). -/
def fieldRn (w : Word) : Fin 32 := (w.extractLsb' 5 5).toFin

/-- Field `Pg`, bits 12:10 (R61, R63). -/
def fieldPg (w : Word) : Fin 8 := (w.extractLsb' 10 3).toFin

/-- Field `Rm`, bits 20:16 (R61, R63). -/
def fieldRm (w : Word) : Fin 32 := (w.extractLsb' 16 5).toFin

/-- The base register a field value names: the stack pointer for 31, else a general register (R64). -/
def baseOfField (n : Fin 32) : BaseReg :=
  if h : n.val < 31 then .x ⟨n.val, h⟩ else .sp

/-- The operands of a matched word (R63). -/
def operandsOf (w : Word) : Instr :=
  .ld3b (fieldZt w) (fieldPg w) (baseOfField (fieldRn w)) (fieldRm w)

/-- The decoder of 32-bit words, total, with the three verdicts of R67. A word that matches no row is `notShown` (R68);
a matched word is `undefined` when neither feature is implemented (R66) or `Rm = '11111'` (R65). -/
def decode (f : Features) (w : Word) : Verdict :=
  if w &&& ld3bMask = ld3bMatch then
    if !f.available then .undefined
    else if fieldRm w = 31 then .undefined
    else .instr (operandsOf w)
  else .notShown

/-! ## Bytes -/

/-- The four bytes of an instruction word at ascending addresses, least significant first (R42). -/
def wordBytes (w : Word) : List Byte :=
  [w.extractLsb' 0 8, w.extractLsb' 8 8, w.extractLsb' 16 8, w.extractLsb' 24 8]

/-- The word that four bytes at ascending addresses make (R42). -/
def wordOfBytes (b0 b1 b2 b3 : Byte) : Word := b3 ++ b2 ++ b1 ++ b0

/-- What a list of bytes starts with. -/
inductive ByteVerdict where
  /-- four bytes were there: the verdict on their word, and the bytes after it -/
  | word (v : Verdict) (rest : List Byte)
  /-- fewer than four bytes: no instruction is shorter (R60, R69) -/
  | truncated
deriving DecidableEq, Repr

/-- The decoder of byte lists, total: every instruction is one little-endian 32-bit word (R42, R60, R69). -/
def decodeBytes (f : Features) : List Byte → ByteVerdict
  | b0 :: b1 :: b2 :: b3 :: rest => .word (decode f (wordOfBytes b0 b1 b2 b3)) rest
  | _ => .truncated

/-! ## Encoding -/

/-- The value of the field `Rn` for a base register (R64, R72). -/
def fieldOfBase : BaseReg → Fin 32
  | .x n => ⟨n.val, by omega⟩
  | .sp => 31

/-- The word of an instruction, laid out by the diagram of R61: fixed `10100100010`, `Rm`, fixed `110`, `Pg`, `Rn`, `Zt`. -/
def encode : Instr → Word
  | .ld3b zt pg rn rm =>
    0b10100100010#11 ++ BitVec.ofFin (w := 5) rm ++ 0b110#3 ++ BitVec.ofFin (w := 3) pg
      ++ BitVec.ofFin (w := 5) (fieldOfBase rn) ++ BitVec.ofFin (w := 5) zt

/-! ## The host's table word -/

/-- The features `decodeTableWord` decodes under: at least one is implemented, so that the row exists (R66). -/
def tableFeatures : Features := { sve := true, sme := false }

/-- The instruction the decoder reads from the instruction whose `nbits` low bits are those of `w` and whose other bits
are 0, laid out in memory as R42 says. -/
def decodeTableWord (nbits w : Nat) : Option Instr :=
  match decodeBytes tableFeatures (wordBytes (BitVec.ofNat 32 (w % 2 ^ nbits))) with
  | .word (.instr i) _ => some i
  | _ => none

/-! ## Assembler operands -/

/-- A register name where the template has `<Xn|SP>` or `<Xm>` (R70, R71). `xzr` stands for the zero register's name,
which no operand of LD3B may be (R65; the name is general knowledge, G4). -/
inductive XName where
  | x (n : Nat)
  | sp
  | xzr
deriving DecidableEq, Repr

/-- The operands of one line of the template of R70, as written: three vector register numbers, a predicate register
number, a base and an index. -/
structure AsmLine where
  zt1 : Nat
  zt2 : Nat
  zt3 : Nat
  pg : Nat
  base : XName
  index : XName
deriving DecidableEq, Repr

/-- The base register a name stands for: `X0` to `X30` or `SP` (R71). -/
def asmBase : XName → Option BaseReg
  | .x n => if h : n < 31 then some (.x ⟨n, h⟩) else none
  | .sp => some .sp
  | .xzr => none

/-- The field `Rm` of an index register name: `X0` to `X30` only (R65, R72). -/
def asmIndex : XName → Option (Fin 32)
  | .x j => if h : j < 31 then some ⟨j, by omega⟩ else none
  | .sp => none
  | .xzr => none

/-- The instruction an assembler line stands for, where it is encodable (R72): the three vector registers are
consecutive modulo 32, the predicate is P0 to P7, the index is X0 to X30. -/
def assemble (l : AsmLine) : Option Instr :=
  if ht : l.zt1 < 32 then
    if hg : l.pg < 8 then
      if l.zt2 = (l.zt1 + 1) % 32 ∧ l.zt3 = (l.zt1 + 2) % 32 then
        match asmBase l.base, asmIndex l.index with
        | some rn, some rm => some (.ld3b ⟨l.zt1, ht⟩ ⟨l.pg, hg⟩ rn rm)
        | _, _ => none
      else none
    else none
  else none

/-- The name of a base register. -/
def nameOfBase : BaseReg → XName
  | .x n => .x n.val
  | .sp => .sp

/-- Disassembly, the inverse of `assemble` (R72). -/
def disassemble : Instr → AsmLine
  | .ld3b zt pg rn rm =>
    { zt1 := zt.val, zt2 := (zt.val + 1) % 32, zt3 := (zt.val + 2) % 32, pg := pg.val,
      base := nameOfBase rn, index := .x rm.val }

/-- The spelling of a register name (R71; the letters are general knowledge, G4). -/
def XName.text : XName → String
  | .x n => "X" ++ toString n
  | .sp => "SP"
  | .xzr => "XZR"

/-- The text of a line in the template of R70. (The two braces are written by their character codes, 123 and 125.) -/
def AsmLine.text (l : AsmLine) : String :=
  "LD3B  " ++ String.singleton (Char.ofNat 123) ++ " Z" ++ toString l.zt1 ++ ".B, Z" ++ toString l.zt2 ++ ".B, Z"
    ++ toString l.zt3 ++ ".B " ++ String.singleton (Char.ofNat 125) ++ ", P" ++ toString l.pg ++ "/Z, ["
    ++ l.base.text ++ ", " ++ l.index.text ++ "]"

end Sys2Proof
end

