-- ==== Sys2Proof/Machine/State.lean ====
section
/-! DEFINITION. The state of the machine, the outcomes that end a step, and the state at reset. -/

namespace Sys2Proof.Machine

/-- Data memory (R40, R48): the bytes of the launch memory that are known, as (address, byte) pairs with addresses
strictly rising (`Memory.wf`, Machine/Ops.lean). An address that is not listed holds no known byte. -/
abbrev Memory := List Host.Cell

/-- One record of the event history: `(pc of the instruction, element e, member r, address, access descriptor, byte
returned)` (`10_state.md` R28(b)). -/
structure ReadEvent where
  pc : Dword
  e : Nat
  r : Fin 3
  addr : Dword
  acc : AccDesc
  byte : Byte
deriving DecidableEq, Repr

/-- What the parameters that are functions of the state may depend on (R9, R10, R12): the registers, the memory and the event
history. `PSTATE.DIT` is not among it, since it "has no effect on any value" (R25); nor are the parameters, the model's own
`draws`, and the fault record and refused mark, which are clear wherever there is a step (log 1). -/
structure View (vl : Nat) where
  x : Vector Dword 31
  sp : Dword
  pc : Dword
  z : Vector (BitVec vl) 32
  p : Vector (BitVec (vl / 8)) 8
  mem : Memory
  events : List ReadEvent
deriving DecidableEq, Repr

end Sys2Proof.Machine

namespace Sys2Proof

/-- FREE VALUE (R9, R10, R12; log 1): the condition `StateCond.free k`, any function at all of what the state holds. It has
no body: nothing can be proved of it. -/
opaque Config.freeCond (k : Nat) {vl : Nat} (v : Machine.View vl) : Bool

end Sys2Proof

namespace Sys2Proof.Machine

/-- A fault and the information R100 says it records. -/
inductive FaultRecord where
  /-- `UndefinedInstruction` (R101) -/
  | undefinedInstruction (word : Word) (pc : Dword)
  /-- `SveAccessTrap(k)` (R102) -/
  | sveAccessTrap (k : Nat) (pc : Dword)
  /-- `SPAlignmentFault` (R103) -/
  | spAlignmentFault (pc : Dword) (sp : Dword)
  /-- `DataAbort(f)` (R104), with the element and member whose read failed -/
  | dataAbort (info : FaultInfo) (e : Nat) (r : Fin 3) (pc : Dword)
deriving DecidableEq, Repr

/-- The state: every piece of state the spec gives the machine, and one field of the model's own (`draws`). -/
structure State where
  /-- the parameters of R7 to R13; no step changes them (log 1) -/
  params : Params
  /-- general registers `x[0]` to `x[30]` (R20) -/
  x : Vector Dword 31
  /-- the stack pointer (R21) -/
  sp : Dword
  /-- the address of the word being executed (R22) -/
  pc : Dword
  /-- vector registers `z[0]` to `z[31]`, `VL` bits each (R23) -/
  z : Vector (BitVec params.vl) 32
  /-- predicate registers `p[0]` to `p[7]`, `PL = VL / 8` bits each (R24) -/
  p : Vector (BitVec (params.vl / 8)) 8
  /-- `PSTATE.DIT` (R25): a timing property only, no value depends on it (R133) -/
  dit : Bool
  /-- the launch memory `M0` (R48); no instruction writes it (R44) -/
  mem : Memory
  /-- the fault record (R28(a)): empty, or set by a `raise` and never cleared -/
  fault : Option FaultRecord
  /-- the refused mark (R28(c)) -/
  refused : Bool
  /-- the event history (R28(b)), oldest read first -/
  events : List ReadEvent
  /-- the MODEL's own field: the index of the next execution's free values (log 6) -/
  draws : Nat
deriving DecidableEq, Repr

/-- The machine stops with a fault: the four fault outcomes of R100 that are the hardware's. Each carries what R100 says
it records and the whole state the fault leaves (R107), `left`, whose fault record is set; a fault is terminal (R108). -/
inductive Fault where
  /-- Raised by the decoder on an LD3B word with `Rm = 11111` or without FEAT_SVE and FEAT_SME (R65, R66, R101), and by
  the instruction itself where it is given such operands. Safe: it is the outcome the spec names. -/
  | undefinedInstruction (word : Word) (pc : Dword) (left : State)
  /-- Raised by LD3B when `CheckSVEEnabled()` traps (R81, R102). Safe: it is the outcome the spec names. -/
  | sveAccessTrap (k : Nat) (pc : Dword) (left : State)
  /-- Raised by LD3B with base SP when the armed check meets a misaligned `sp` (R82, R103). Unsafe in one point: the
  16-byte figure is PRESUMED (log 9). -/
  | spAlignmentFault (pc : Dword) (sp : Dword) (left : State)
  /-- Raised by LD3B when the read of an active element's byte fails (R84, R104). Safe: it is the outcome the spec names;
  which of several failing reads is reported is log 18. -/
  | dataAbort (info : FaultInfo) (e : Nat) (r : Fin 3) (pc : Dword) (left : State)
deriving DecidableEq, Repr

/-- The machine has no step. -/
inductive Refusal where
  /-- Raised by `exec` for an instruction with no meaning in the model; no arm does. Safe. -/
  | notModelled (mnemonic : String)
  /-- Raised by the step on a word outside the spec (R68); `left` has the refused mark set. Safe: a claim becomes
  unprovable. -/
  | notShown (word : Word) (pc : Dword) (left : State)
  /-- Raised by the step when `pc` is not the address of a word of the text (R55, R134); `left` has the refused mark set.
  Safe. -/
  | noWordAtPc (pc : Dword) (left : State)
  /-- Raised by the step when the run has ended (R134): `pc` is the address after the text. Nothing is changed. Safe: it
  says nothing of what a chip does there. -/
  | endOfRun (left : State)
  /-- Raised by the step when the refused mark is set: there is no step (R134). Safe. -/
  | alreadyRefused (left : State)
  /-- Raised by the step when `VL` is not a positive multiple of 8 (R7, U18). Safe. -/
  | illegalVectorLength (vl : Nat)
deriving DecidableEq, Repr

/-- What every meaning answers. -/
abbrev Outcome := Host.Outcome State Fault Refusal

/-- The parameters at reset. DESIGN CHOICE (log 2): the spec gives none (R29, R130); no program is placed. -/
def Params.atReset : Params where
  vl := 128
  features := { sve := true, sme := false }
  sveCheck := []
  spAlignCheck := .always
  memFault := []
  textBase := 0
  text := []

/-- The machine at reset. "Every reset value is unspecified" (R29, R130): the registers hold 0 by DESIGN CHOICE (log 3);
the fault record and the event history are empty and the refused mark is clear, as R29 says of a launch. -/
def State.reset : State where
  params := Params.atReset
  x := Vector.replicate 31 0
  sp := 0
  pc := 0
  z := Vector.replicate 32 0
  p := Vector.replicate 8 0
  dit := false
  mem := []
  fault := none
  refused := false
  events := []
  draws := 0

end Sys2Proof.Machine
end

