-- ==== Sys2Proof/Machine/Ops.lean ====
section
/-! DEFINITION. The shared operations: elements of vectors, the launch memory, the parameters as the helpers the page
calls, the read primitive, writing the destinations, and raising a fault. -/

namespace Sys2Proof.Machine

/-! ## Elements of a vector (R18) -/

/-- Byte element `e` of a vector: bits `[8e+7 : 8e]` (R18). -/
def elem {w : Nat} (v : BitVec w) (e : Nat) : Byte := v.extractLsb' (8 * e) 8

/-- A vector with byte element `e` replaced: the assignment `v[8e+7 : 8e] <- b` (R17, R18). -/
def setElem {w : Nat} (v : BitVec w) (e : Nat) (b : Byte) : BitVec w :=
  (v &&& ~~~((255#8).setWidth w <<< (8 * e))) ||| (b.setWidth w <<< (8 * e))

/-! ## The launch memory (R40, R48) -/

/-- The byte the memory lists at an address, if it lists one. An unlisted address holds no known byte (log 5). -/
def Memory.byteAt : Memory → Nat → Option Byte
  | [], _ => none
  | (k, b) :: m, a => if k = a then some b else Memory.byteAt m a

/-- Listed addresses are at least `lo`, strictly rising, and addresses of the 64-bit space. -/
def Memory.risingFrom : Nat → Memory → Bool
  | _, [] => true
  | lo, (k, _) :: m => decide (lo ≤ k ∧ k < 2 ^ 64) && Memory.risingFrom (k + 1) m

/-- The canonical form of a memory. -/
def Memory.wf (m : Memory) : Bool := Memory.risingFrom 0 m

/-- A memory with one more known byte, in canonical form: how a launch memory is built. No instruction uses it (R44). -/
def Memory.put (a : Nat) (b : Byte) : Memory → Memory
  | [] => [(a, b)]
  | (k, c) :: m =>
    if a < k then (a, b) :: (k, c) :: m
    else if a = k then (a, b) :: m
    else (k, c) :: Memory.put a b m

/-! ## The helpers the page calls, as parameters (R9, R10, R12) -/

/-- What the parameters' answers may depend on (R9, R10, R12). -/
def State.view (s : State) : View s.params.vl :=
  { x := s.x, sp := s.sp, pc := s.pc, z := s.z, p := s.p, mem := s.mem, events := s.events }

/-- A 64-bit value is in a range, both ends included. -/
def inRange (lo hi a : Dword) : Bool := decide (lo.toNat ≤ a.toNat ∧ a.toNat ≤ hi.toNat)

/-- Whether a condition holds of a state (log 1). -/
def StateCond.holds {vl : Nat} : StateCond → View vl → Bool
  | .always, _ => true
  | .pcIn lo hi, v => inRange lo hi v.pc
  | .spIn lo hi, v => inRange lo hi v.sp
  | .xIn n lo hi, v => inRange lo hi v.x[n.val]
  | .zBit i b, v => v.z[i.val].getLsbD b
  | .pBit g b, v => v.p[g.val].getLsbD b
  | .memIs a b, v => decide (v.mem.byteAt a.toNat = some b)
  | .readsAtLeast n, v => decide (n ≤ v.events.length)
  | .hasRead lo hi, v => v.events.any fun ev => inRange lo hi ev.addr
  | .free k, v => Config.freeCond k v
  | .not c, v => !StateCond.holds c v
  | .and c d, v => StateCond.holds c v && StateCond.holds d v

/-- What the first entry whose condition holds says of the enable check; with none, it passes (R9). -/
def sveOutcomeOf {vl : Nat} : List SveTrapRule → View vl → SveOutcome
  | [], _ => .pass
  | t :: ts, v => if StateCond.holds t.cond v then .trap t.k else sveOutcomeOf ts v

/-- `CheckSVEEnabled()`: the parameter `SveCheck`, at this state (R9). -/
def sveCheck (s : State) : SveOutcome := sveOutcomeOf s.params.sveCheck s.view

/-- Whether `CheckSPAlignment()` is armed: the parameter `SpAlignCheck`, at this state (R10). -/
def spAlignCheck (s : State) : Bool := StateCond.holds s.params.spAlignCheck s.view

/-- Whether a region of `MemFault` covers an access made in a state. -/
def regionCovers {vl : Nat} (f : FaultRegion) (v : View vl) (a : Dword) (acc : AccDesc) : Bool :=
  StateCond.holds f.cond v && inRange f.lo f.hi a && decide (f.acc = none ∨ f.acc = some acc)

/-- What the first covering region says of an access; the information records the address (R47, R104). -/
def faultIn {vl : Nat} : List FaultRegion → View vl → Dword → AccDesc → Option FaultInfo
  | [], _, _, _ => none
  | f :: fs, v, a, acc => if regionCovers f v a acc then some { addr := a, cause := f.cause } else faultIn fs v a acc

/-- The parameter `MemFault`, at this state (R12, R47). -/
def memFault (s : State) (a : Dword) (acc : AccDesc) : Option FaultInfo := faultIn s.params.memFault s.view a acc

/-- The memory oracle (R48): the launch memory's byte where it lists one, else a free value of this execution. -/
def oracle (s : State) (a : Dword) : Byte :=
  match s.mem.byteAt a.toNat with
  | some b => b
  | none => Config.oracleByte s.draws a

/-! ## Addresses (R83) -/

/-- `AddressAdd` and `AddressIncrement`: addition modulo 2^64 (R83, D7; PRESUMED, log 10). The descriptor has no effect. -/
def addressAdd (base : Dword) (n : Nat) (_acc : AccDesc) : Dword := base + BitVec.ofNat 64 n

/-! ## The read primitive (R47) -/

/-- `MemRead(addr, 1)` for element `e`, member `r`: it fails with the information of the fault, or answers the read event
to record, whose byte is the byte read. The caller appends the event to the history (R47, step (3)). `s` is the state at the
read, with the reads made before it in its history. -/
def memRead (s : State) (a : Dword) (acc : AccDesc) (e : Nat) (r : Fin 3) : Except FaultInfo ReadEvent :=
  match memFault s a acc with
  | some f => .error f
  | none => .ok { pc := s.pc, e := e, r := r, addr := a, acc := acc, byte := oracle s a }

/-! ## The destination registers (R64, R86) -/

/-- The number of the `r`-th destination register, `(t + r) MOD 32` (R64). -/
def destReg (t : Fin 32) (r : Fin 3) : Fin 32 := ⟨(t.val + r.val) % 32, by omega⟩

/-- The vector registers after the write-back of three whole registers (R86). -/
def writeDests {w : Nat} (z : Vector (BitVec w) 32) (t : Fin 32) (v : Vector (BitVec w) 3) : Vector (BitVec w) 32 :=
  let z0 := z.set (destReg t 0).val v[0]
  let z1 := z0.set (destReg t 1).val v[1]
  z1.set (destReg t 2).val v[2]

/-- The three free vectors the destinations hold after a fault (R107, U9; log 7). -/
def freeVectors (k w : Nat) : Vector (BitVec w) 3 :=
  #v[Config.destAfterFault k 0 w, Config.destAfterFault k 1 w, Config.destAfterFault k 2 w]

/-- The state in which the three destinations hold any value (R107). The execution has used its free values. -/
def freeDests (t : Fin 32) (s : State) : State :=
  { s with z := writeDests s.z t (freeVectors s.draws s.params.vl), draws := s.draws + 1 }

/-- The state with more reads in the history (R47). -/
def addEvents (evs : List ReadEvent) (s : State) : State := { s with events := s.events ++ evs }

/-! ## Raising a fault (R100, R107, R108) -/

/-- The outcome that carries a fault record and the state the fault leaves (R100). -/
def faultOf : FaultRecord → State → Fault
  | .undefinedInstruction w pc, left => .undefinedInstruction w pc left
  | .sveAccessTrap k pc, left => .sveAccessTrap k pc left
  | .spAlignmentFault pc sp, left => .spAlignmentFault pc sp left
  | .dataAbort f e r pc, left => .dataAbort f e r pc left

/-- `raise`: the fault record is set, `pc` stays at the faulting instruction, and the step ends with the outcome "fault"
(R107). No handler is entered: a fault is terminal (R108, D13; log 8). -/
def raiseFault (rec : FaultRecord) (s : State) : Outcome :=
  .fault (faultOf rec { s with fault := some rec })

/-! ## Completion (R88) -/

/-- The address after a word at `pc`: `(pc + 4) mod 2^64` (R22, R88; PRESUMED, log 11). -/
def nextPc (pc : Dword) : Dword := pc + 4

end Sys2Proof.Machine
end

