-- ==== Sys2Proof/Machine/Operands.lean ====
section
/-! DEFINITION. The operand forms of LD3B: its registers, its predicate, its address (R20, R21, R24, R64, R82, R83). -/

namespace Sys2Proof.Machine

/-- The value of the base register: `if n == 31 then SP{64}() else X{64}(n)` (R20, R21, R83). -/
def baseValue (s : State) : BaseReg → Dword
  | .x n => s.x[n.val]
  | .sp => s.sp

/-- The index register a field `Rm` names: general register 0 to 30; 31 names none (R65). -/
def indexReg (rm : Fin 32) : Option (Fin 31) :=
  if h : rm.val < 31 then some ⟨rm.val, h⟩ else none

/-- The governing predicate, `P{}(g)`, all `PL` bits (R24). `Pg` reaches `p[0]` to `p[7]`. -/
def predicate (s : State) (pg : Fin 8) : BitVec (s.params.vl / 8) := s.p[pg.val]

/-- `AnyActiveElement{PL}(mask, 8)`: some bit of the predicate is 1 (R18, R82). -/
def anyActive {w : Nat} (mask : BitVec w) : Bool := decide (mask ≠ 0)

/-- `ActivePredicateElement{PL}(mask, e, 8)`: bit `e` of the predicate (R18, R84). -/
def active {w : Nat} (mask : BitVec w) (e : Nat) : Bool := mask.getLsbD e

/-- `esize DIV 8`, the size of an element in bytes (R14, R63). -/
def mbytes : Nat := 1

/-- The access descriptor every access of LD3B carries (R46). -/
def ld3bAccDesc : AccDesc :=
  { memOp := .load, nontemporal := false, contiguous := true, predicated := true, tagChecked := true }

/-- The start address `A = AddressAdd(base, UInt(offset) * mbytes, accdesc)` (R83). -/
def startAddress (s : State) (rn : BaseReg) (m : Fin 31) : Dword :=
  addressAdd (baseValue s rn) ((s.x[m.val]).toNat * mbytes) ld3bAccDesc

/-- The address of member `r` of structure `e`: `(A + 3e + r) mod 2^64`, `3e + r` increments after the start (R83). -/
def memberAddress (a : Dword) (e : Nat) (r : Fin 3) : Dword :=
  addressAdd a ((3 * e + r.val) * mbytes) ld3bAccDesc

/-- `CheckSPAlignment()`'s test fails: it is armed and `sp[3:0] != 0` (R10, R82; the figure is PRESUMED, log 9). -/
def spMisaligned (s : State) : Bool := spAlignCheck s && decide (s.sp.extractLsb' 0 4 ≠ 0)

/-- `CheckSPAlignment()` is called when the base is SP: always if an element is active, else as the free Boolean
`CheckSpNoneActive` of this execution says (R11, R82; log 6). -/
def spCheckCalled {w : Nat} (s : State) (mask : BitVec w) : Bool :=
  anyActive mask || Config.checkSpNoneActive s.draws

/-- Lines 4 to 7 of R80: the stack-pointer check raises its fault. Only base SP is ever checked (R82). -/
def spCheckFaults {w : Nat} (s : State) (rn : BaseReg) (mask : BitVec w) : Bool :=
  match rn with
  | .x _ => false
  | .sp => spMisaligned s && spCheckCalled s mask

end Sys2Proof.Machine
end

