-- ==== Sys2Proof/Machine/Loads.lean ====
section
/-! DEFINITION. LD3B (scalar plus scalar): the element loop and the instruction (R80 to R91). -/

namespace Sys2Proof.Machine

/-- The three temporary vectors of `vl` bits and the reads made so far (R80 line 10, R84). -/
structure Loaded (vl : Nat) where
  vals : Vector (BitVec vl) 3
  events : List ReadEvent
deriving DecidableEq, Repr

/-- A read that failed: its information, its element and member, and the reads made before it (R104, R107). -/
structure Abort where
  info : FaultInfo
  e : Nat
  r : Fin 3
  events : List ReadEvent
deriving DecidableEq, Repr

/-- The (element, member) pairs of `n` elements in the order of the loops: `e` ascending, then `r` (R49, R84). -/
def loopOrder (n : Nat) : List (Nat × Fin 3) :=
  (List.range n).flatMap fun e => [(e, 0), (e, 1), (e, 2)]

/-- Lines 13 to 15 of R80 for one pair: an active element's byte is read (R84); an inactive element's is set to zero,
with no access (R85). `MemFault` is asked of the state in which the reads of this instruction made so far are in the history
(R12, R47). -/
def loadMember {vl : Nat} (s : State) (mask : BitVec (vl / 8)) (a : Dword) (l : Loaded vl) (e : Nat) (r : Fin 3) :
    Except Abort (Loaded vl) :=
  if active mask e then
    match memRead (addEvents l.events s) (memberAddress a e r) ld3bAccDesc e r with
    | .ok ev => .ok { vals := l.vals.set r.val (setElem l.vals[r.val] e ev.byte), events := l.events ++ [ev] }
    | .error f => .error { info := f, e := e, r := r, events := l.events }
  else .ok { l with vals := l.vals.set r.val (setElem l.vals[r.val] e 0) }

/-- Lines 11 to 15 of R80: the pairs one after another, ending at the first read that fails (R84, R106). -/
def loadLoop {vl : Nat} (s : State) (mask : BitVec (vl / 8)) (a : Dword) :
    List (Nat × Fin 3) → Loaded vl → Except Abort (Loaded vl)
  | [], l => .ok l
  | (e, r) :: rest, l =>
    match loadMember s mask a l e r with
    | .ok l' => loadLoop s mask a rest l'
    | .error ab => .error ab

/-- The temporary vectors before the loop. Every one of their bits is assigned by the loop (R86). -/
def Loaded.empty (vl : Nat) : Loaded vl := { vals := #v[0, 0, 0], events := [] }

/-- Lines 10 to 15 of R80: all `vl / 8` elements, from the start address `a`; `s` is the state before the first read. -/
def loadStructures {vl : Nat} (s : State) (mask : BitVec (vl / 8)) (a : Dword) : Except Abort (Loaded vl) :=
  loadLoop s mask a (loopOrder (vl / 8)) (Loaded.empty vl)

/-- The state after a completed LD3B: three whole registers written, the reads recorded, `pc` advanced; nothing else of
the spec's state changes (R86, R88, R90, R91). The execution has used its free values. -/
def completeLd3b (zt : Fin 32) (s : State) (l : Loaded s.params.vl) : State :=
  { s with z := writeDests s.z zt l.vals, events := s.events ++ l.events, pc := nextPc s.pc, draws := s.draws + 1 }

/-- Lines 8 to 17 of R80, once the checks have passed: address, loads, write-back. -/
def ld3bTransfer (zt : Fin 32) (s : State) (mask : BitVec (s.params.vl / 8)) (a : Dword) : Outcome :=
  match loadStructures s mask a with
  | .ok l => .next (completeLd3b zt s l)
  | .error ab => raiseFault (.dataAbort ab.info ab.e ab.r s.pc) (freeDests zt (addEvents ab.events s))

/-- Lines 3 to 17 of R80, once SVE is known to be enabled: predicate, stack-pointer check, then the transfer. -/
def ld3bEnabled (zt : Fin 32) (pg : Fin 8) (rn : BaseReg) (m : Fin 31) (s : State) : Outcome :=
  if spCheckFaults s rn (predicate s pg) then raiseFault (.spAlignmentFault s.pc s.sp) (freeDests zt s)
  else ld3bTransfer zt s (predicate s pg) (startAddress s rn m)

/-- LD3B (scalar plus scalar), R80. Without FEAT_SVE and FEAT_SME, or with `Rm = 31`, it is an undefined instruction
(R65, R66, R101); the step's decoder answers so before it gets here (R67), and the same test here makes the meaning of
the instruction whole by itself (log 26). Then the enable check (R81). -/
def execLd3b (zt : Fin 32) (pg : Fin 8) (rn : BaseReg) (rm : Fin 32) (s : State) : Outcome :=
  if s.params.features.available then
    match indexReg rm with
    | some m =>
      match sveCheck s with
      | .trap k => raiseFault (.sveAccessTrap k s.pc) s
      | .pass => ld3bEnabled zt pg rn m s
    | none => raiseFault (.undefinedInstruction (encode (.ld3b zt pg rn rm)) s.pc) s
  else raiseFault (.undefinedInstruction (encode (.ld3b zt pg rn rm)) s.pc) s

end Sys2Proof.Machine
end

