-- ==== Sys2Proof/Machine/Dispatch.lean ====
section
/-! DEFINITION. The dispatch of the instructions to their meanings. -/

namespace Sys2Proof.Machine

def exec (i : Instr) (s : State) : Host.Outcome State Fault Refusal :=
  match i with
  | .ld3b zt pg rn rm => Sys2Proof.Machine.execLd3b zt pg rn rm s

end Sys2Proof.Machine
end

