-- ==== Sys2Proof/Machine/Cycle.lean ====
section
/-! DEFINITION. One step of the run (R134): whether there is a step, the fetch of a word (R55), its decoding (R67) and
what each verdict does; and placing a word where the next step fetches it. -/

namespace Sys2Proof.Machine

/-- What stands at `pc` (R55, R134). -/
inductive Fetched where
  /-- a word of the text -/
  | word (w : Word)
  /-- the address after the text: the run has ended -/
  | ended
  /-- no address of the text -/
  | nothing
deriving DecidableEq, Repr

/-- `TextBase + 4 * length(Text)`, modulo 2^64 (R22, R134). -/
def endAddress (p : Params) : Dword := p.textBase + BitVec.ofNat 64 (4 * p.text.length)

/-- `Text[(pc - TextBase) / 4]`, where `pc` is 4-byte aligned and in the text (R55). -/
def wordAt (p : Params) (pc : Dword) : Option Word :=
  if p.textBase.toNat ≤ pc.toNat ∧ pc.toNat % 4 = 0 ∧ (pc.toNat - p.textBase.toNat) % 4 = 0 then
    p.text[(pc.toNat - p.textBase.toNat) / 4]?
  else none

/-- The fetch of a step: the end of the run is asked for first, then the text (R134). -/
def fetch (p : Params) (pc : Dword) : Fetched :=
  if pc = endAddress p then .ended
  else
    match wordAt p pc with
    | some w => .word w
    | none => .nothing

/-- The refused mark is set (R28(c), R68). -/
def markRefused (s : State) : State := { s with refused := true }

/-- What a fetched word does, by the decoder's verdict (R67, R68, R101, R134). -/
def runWord (w : Word) (s : State) : Outcome :=
  match decode s.params.features w with
  | .instr i => exec i s
  | .undefined => raiseFault (.undefinedInstruction w s.pc) s
  | .notShown => .refused (.notShown w s.pc (markRefused s))

/-- A step of a machine that has stopped neither with a fault nor with a refusal (R134); a vector length that is not a
positive multiple of 8 is refused (U18). -/
def runPc (s : State) : Outcome :=
  if s.params.vlUsable then
    match fetch s.params s.pc with
    | .ended => .refused (.endOfRun s)
    | .nothing => .refused (.noWordAtPc s.pc (markRefused s))
    | .word w => runWord w s
  else .refused (.illegalVectorLength s.params.vl)

/-- One step (R134): "if the fault record is set or the refused mark is set, there is no step". A set fault record answers
its own fault again, with the state as it is. -/
def cycle (s : State) : Outcome :=
  match s.fault with
  | some rec => .fault (faultOf rec s)
  | none => if s.refused then .refused (.alreadyRefused s) else runPc s

/-- The word of an instruction whose low `nbits` bits are those of `w` and whose other bits are 0, read back from its
bytes in memory order (R42). -/
def tableWord (nbits w : Nat) : Word :=
  match wordBytes (BitVec.ofNat 32 (w % 2 ^ nbits)) with
  | [b0, b1, b2, b3] => wordOfBytes b0 b1 b2 b3
  | _ => 0

/-- A launch of the one-word program `w` where the machine stands (R13, R130, R134; log 21): the word is the text, its
base is `pc` (brought to a multiple of 4), and the machine has stopped neither with a fault nor with a refusal. Nothing
else changes. -/
def launchWord (w : Word) (s : State) : State :=
  { s with
    params := { s.params with textBase := s.pc &&& ~~~3#64, text := [w] }
    pc := s.pc &&& ~~~3#64
    fault := none
    refused := false }

end Sys2Proof.Machine
end

