-- ==== Sys2Proof/Machine/Step.lean ====
section
/-! DEFINITION. The step of the machine (R134), and the word the host places for it. -/

namespace Sys2Proof.Machine

/-- One step of the machine (R134). -/
def step (s : State) : Host.Outcome State Fault Refusal := cycle s

/-- The state in which the next step fetches the instruction whose low `nbits` bits are those of `w` (log 21). -/
def State.withFetchWord (s : State) (nbits w : Nat) : State := launchWord (tableWord nbits w) s

end Sys2Proof.Machine
end

