-- ==== Sys2Proof/Safety.lean ====
section
/-! DEFINITION. The terms in which claims about runs are made: launch and final states (R130, R134), the reads a completed
LD3B makes (R90), and the invariant of a run. -/

namespace Sys2Proof.Machine

/-- The address after `k` words of the text, modulo 2^64. -/
def textAddress (p : Params) (k : Nat) : Dword := p.textBase + BitVec.ofNat 64 (4 * k)

/-- A launch state (R130, R134): a well-formed program, `pc = TextBase`, no fault, no read yet, the refused mark clear. -/
def Launch (s : State) : Prop :=
  s.params.programWf = true ∧ s.pc = s.params.textBase ∧ s.fault = none ∧ s.events = [] ∧ s.refused = false

/-- A final state: the run "has ended with the fault record empty and the refused mark clear" (R134). -/
def Final (s : State) : Prop := s.pc = endAddress s.params ∧ s.fault = none ∧ s.refused = false

/-- The read event of member `r` of structure `e` (R28(b), R47, R84). -/
def eventAt (s : State) (a : Dword) (er : Nat × Fin 3) : ReadEvent :=
  { pc := s.pc, e := er.1, r := er.2, addr := memberAddress a er.1 er.2, acc := ld3bAccDesc,
    byte := oracle s (memberAddress a er.1 er.2) }

/-- The address of member `r` of structure `e`, written out as the spec writes it: `(base + x[m] + 3e + r) mod 2^64` with
base `sp` or `x[n]` (R83, R90). Statements use it; the machine computes addresses by `startAddress` and `memberAddress`. -/
def byteAddress (s : State) (rn : BaseReg) (m : Fin 31) (e : Nat) (r : Fin 3) : Dword :=
  (match rn with
    | .x n => s.x[n.val]
    | .sp => s.sp) + s.x[m.val] + BitVec.ofNat 64 (3 * e + r.val)

/-- The read event of member `r` of structure `e` at the address `byteAddress` gives, whose byte is the oracle's (R28(b),
R46, R47). -/
def byteEvent (s : State) (rn : BaseReg) (m : Fin 31) (e : Nat) (r : Fin 3) : ReadEvent :=
  { pc := s.pc, e := e, r := r, addr := byteAddress s rn m e r,
    acc := { memOp := .load, nontemporal := false, contiguous := true, predicated := true, tagChecked := true },
    byte := oracle s (byteAddress s rn m e r) }

/-- `CheckSPAlignment()`, where the base is SP, cannot fault: it is not armed, or `sp[3:0]` is 0 (R10, R131). -/
def SpCheckPasses (s : State) (rn : BaseReg) : Prop :=
  rn = .sp → spAlignCheck s = false ∨ s.sp.extractLsb' 0 4 = 0

/-- The check that would fault if it is made: base SP, armed, `sp[3:0]` not 0 (R10, R82). -/
def SpCheckWouldFault (s : State) (rn : BaseReg) : Prop :=
  rn = .sp ∧ spAlignCheck s = true ∧ s.sp.extractLsb' 0 4 ≠ 0

/-- LD3B is defined and enabled here: a feature is implemented and `SveCheck` passes (R66, R81, R131). -/
def Enabled (s : State) : Prop :=
  (s.params.features.sve = true ∨ s.params.features.sme = true) ∧ sveCheck s = .pass

/-- The machine has stopped neither with a fault nor with a refusal, its vector length is usable, and `w` stands at `pc`:
a step runs `w` (R55, R134). -/
def RunsWord (s : State) (w : Word) : Prop :=
  s.fault = none ∧ s.refused = false ∧ s.params.vlUsable = true ∧ fetch s.params s.pc = .word w

/-- The pairs of active elements among those listed. -/
def activePairs {w : Nat} (mask : BitVec w) (ps : List (Nat × Fin 3)) : List (Nat × Fin 3) :=
  ps.filter fun er => active mask er.1

/-- The reads of a completed LD3B that starts at address `a`: one for each active element and member (R45, R90). Their
order is the loops' and is no matter for a claim (R49). -/
def readsOf {w : Nat} (s : State) (mask : BitVec w) (a : Dword) : List ReadEvent :=
  (activePairs mask (loopOrder w)).map (eventAt s a)

/-- The pairs (e, r) that come before a pair in the order of the loops (R49, R84): the pair `(e, r)` is number `3e + r`. -/
def pairsBefore (e : Nat) (r : Fin 3) : List (Nat × Fin 3) :=
  (List.range (3 * e + r.val)).map fun j => (j / 3, ⟨j % 3, by omega⟩)

/-- The state in which the read of member `r` of structure `e` is made, if it is made: the reads of the active pairs before it
in the order of the loops are in the history (R47, R84; that order is log 18). -/
def stateAtRead (s : State) (pg : Fin 8) (rn : BaseReg) (m : Fin 31) (e : Nat) (r : Fin 3) : State :=
  addEvents ((activePairs s.p[pg.val] (pairsBefore e r)).map fun q => byteEvent s rn m q.1 q.2) s

/-- The read of member `r` of structure `e`, an active one, does not fault, in the state in which it is made (R12, R47). -/
def Readable (s : State) (pg : Fin 8) (rn : BaseReg) (m : Fin 31) (e : Nat) (r : Fin 3) : Prop :=
  memFault (stateAtRead s pg rn m e r) (byteAddress s rn m e r) ld3bAccDesc = none

/-- The parameters that are functions of the state answer the same in two states, now and after any reads (R9, R10, R12). -/
def HelpersAgree (s s' : State) : Prop :=
  sveCheck s' = sveCheck s ∧ spAlignCheck s' = spAlignCheck s ∧
    ∀ (evs : List ReadEvent) (a : Dword) (acc : AccDesc),
      memFault (addEvents evs s') a acc = memFault (addEvents evs s) a acc

/-- The number of active elements, `popcount(mask)` (R90). -/
def activeCount {w : Nat} (mask : BitVec w) : Nat := ((List.range w).filter (active mask)).length

/-- A recorded read is one an LD3B makes (R46, R48): its descriptor, an element of the vector, and the launch memory's
byte where the memory lists one. -/
def EventOk (s : State) (ev : ReadEvent) : Prop :=
  ev.acc = ld3bAccDesc ∧ ev.e < s.params.vl / 8 ∧ ∀ b, s.mem.byteAt ev.addr.toNat = some b → ev.byte = b

/-- The invariant of a run: the configuration and the program are well formed (R7, R134), the memory is in canonical form,
the machine has stopped neither with a fault nor with a refusal, `pc` is the address of a word of the text or the address
after it (R22, R134), and every recorded read is one an LD3B makes. -/
structure Inv (s : State) : Prop where
  vl : s.params.vlUsable = true
  program : s.params.programWf = true
  mem : s.mem.wf = true
  fault : s.fault = none
  refused : s.refused = false
  pc : ∃ k, k ≤ s.params.text.length ∧ s.pc = textAddress s.params k
  events : ∀ ev ∈ s.events, EventOk s ev

/-- The state with another `MemFault`. -/
def withMemFault (fs : List FaultRegion) (s : State) : State := { s with params := { s.params with memFault := fs } }

end Sys2Proof.Machine
end

