-- ==== Sys2Proof/Certificates/Slice0/Obligations.lean ====
section
/-! DEFINITION. The statements for the provers. `R<n>` is a numbered rule of `spec/`, `D<n>` a decision of
`spec/92_eei_decisions.md`, "log n" the file `notes/assumptions/n.md`. -/

open Sys2Proof Sys2Proof.Machine

/-! ## Encoding and decoding -/

/-- For every instruction that is well formed, decoding its word gives it back, as a word and as its bytes with any bytes
after them (R61 to R64, R72). (The order of the bytes is the spec's choice D12, log 12.) -/
def Obligations.DecodeOfEncodeIsTheInstruction : Prop :=
  ∀ (f : Features) (i : Instr) (rest : List Byte), (f.sve = true ∨ f.sme = true) → i.wf = true →
    decode f (encode i) = .instr i ∧ decodeBytes f (wordBytes (encode i) ++ rest) = .word (.instr i) rest

/-- A word that decodes to an instruction is that instruction's word, and the instruction is well formed (R61 to R65). -/
def Obligations.EncodeOfDecodedIsTheWord : Prop :=
  ∀ (f : Features) (w : Word) (i : Instr), decode f w = .instr i → encode i = w ∧ i.wf = true

/-- The three verdicts by the bits of the word: not shown exactly where bits 31:21 are not `10100100010` or bits 15:13 are
not `110`; undefined exactly where they are and neither feature is implemented or bits 20:16 are all ones (R62, R65 to R68).
(That other words are "not shown" is the spec's choice D22, log 15.) -/
def Obligations.VerdictsByTheBitsOfTheWord : Prop :=
  ∀ (f : Features) (w : Word),
    (decode f w = .notShown ↔
      ¬(w.extractLsb' 21 11 = 0b10100100010#11 ∧ w.extractLsb' 13 3 = 0b110#3)) ∧
    (decode f w = .undefined ↔
      (w.extractLsb' 21 11 = 0b10100100010#11 ∧ w.extractLsb' 13 3 = 0b110#3) ∧
        ((f.sve = false ∧ f.sme = false) ∨ w.extractLsb' 16 5 = 0b11111#5))

/-- The operands of a decoded word are the unsigned values of its fields (R63): `t = w[4:0]`, `n = w[9:5]`, `g = w[12:10]`,
`m = w[20:16]` in 0..30. -/
def Obligations.OperandsAreTheFieldsOfTheWord : Prop :=
  ∀ (f : Features) (w : Word) (zt : Fin 32) (pg : Fin 8) (rn : BaseReg) (rm : Fin 32),
    decode f w = .instr (.ld3b zt pg rn rm) →
      zt.val = w.toNat % 2 ^ 5 ∧ pg.val = w.toNat / 2 ^ 10 % 2 ^ 3 ∧
      rm.val = w.toNat / 2 ^ 16 % 2 ^ 5 ∧ rm.val ≤ 30 ∧
      (w.toNat / 2 ^ 5 % 2 ^ 5 = 31 → rn = .sp) ∧
      (∀ n : Fin 31, w.toNat / 2 ^ 5 % 2 ^ 5 = n.val → rn = .x n)

/-- The 8,192 words with the fixed bits and `Rm = 11111` decode to "undefined" whatever the features, and a step at one of
them raises `UndefinedInstruction`; so no word decodes to a form with index register 31, and the index of an encodable
assembler line is one of X0 to X30 (R65). -/
def Obligations.IndexThirtyOneIsUndefined : Prop :=
  (∀ (f : Features) (s : State) (w : Word), w &&& 0xFFFFE000#32 = 0xA45FC000#32 →
    decode f w = .undefined ∧
    (RunsWord s w → step s =
      .fault (.undefinedInstruction w s.pc { s with fault := some (.undefinedInstruction w s.pc) }))) ∧
  Set.ncard { w : Word | w &&& 0xFFFFE000#32 = 0xA45FC000#32 } = 8192 ∧
  (∀ (f : Features) (w : Word) (zt : Fin 32) (pg : Fin 8) (rn : BaseReg), decode f w ≠ .instr (.ld3b zt pg rn 31)) ∧
  (∀ (l : AsmLine) (i : Instr), assemble l = some i → ∃ j, j ≤ 30 ∧ l.index = .x j)

/-- An implementation with a feature has 253,952 defined LD3B words and 8,192 undefined ones (R62, R65, D1). -/
def Obligations.CountOfDefinedAndUndefinedWords : Prop :=
  ∀ f : Features, (f.sve = true ∨ f.sme = true) →
    Set.ncard { w : Word | ∃ i, decode f w = .instr i } = 253952 ∧
    Set.ncard { w : Word | decode f w = .undefined } = 8192

/-- The word of an instruction as a number: `0xA440C000 + (j << 16) + (k << 10) + (nn << 5) + a` with `nn = 31` for SP
(R72). -/
def Obligations.EncodedWordAsASum : Prop :=
  ∀ (zt : Fin 32) (pg : Fin 8) (rn : BaseReg) (rm : Fin 32),
    (encode (.ld3b zt pg rn rm)).toNat =
      0xA440C000 + rm.val * 2 ^ 16 + pg.val * 2 ^ 10 +
        (match rn with
          | .x n => n.val
          | .sp => 31) * 2 ^ 5 + zt.val

/-- An assembler line is encodable exactly when its three vector registers are consecutive modulo 32, its predicate is P0
to P7, its base X0 to X30 or SP and its index X0 to X30; and disassembly is the inverse (R72). -/
def Obligations.AssemblerLineEncodableExactly : Prop :=
  (∀ l : AsmLine, (∃ i, assemble l = some i) ↔
    l.zt1 < 32 ∧ l.zt2 = (l.zt1 + 1) % 32 ∧ l.zt3 = (l.zt1 + 2) % 32 ∧ l.pg ≤ 7 ∧
    (l.base = .sp ∨ ∃ n, n ≤ 30 ∧ l.base = .x n) ∧ ∃ j, j ≤ 30 ∧ l.index = .x j) ∧
  (∀ (l : AsmLine) (i : Instr), assemble l = some i → i.wf = true ∧ disassemble i = l) ∧
  (∀ i : Instr, i.wf = true → assemble (disassemble i) = some i)

/-- Words written out from the diagram (test vectors EN3, EN4, EN6) decode to their instructions, the least significant
byte first (R42: the byte order is the spec's own choice, D12, log 12). -/
def Obligations.WrittenOutWordsDecode : Prop :=
  decode tableFeatures 0b10100100010_00100_110_011_00010_00001#32 = .instr (.ld3b 1 3 (.x 2) 4) ∧
  decode tableFeatures 0b10100100010_11110_110_111_11111_11111#32 = .instr (.ld3b 31 7 .sp 30) ∧
  decodeBytes tableFeatures [0x5D#8, 0xC5#8, 0x4A#8, 0xA4#8] = .word (.instr (.ld3b 29 1 (.x 10) 10)) []

/-! ## LD3B completes -/

/-- LD3B COMPLETES, and with what (R80, R90, R131): defined, enabled, the stack-pointer check (if any) passing and every
active byte readable, it answers a next state in which byte element `e` of destination `(t + r) mod 32` is the byte read
from `(base + x[m] + 3e + r) mod 2^64` where bit `e` of the governing predicate is 1 and zero else; the other 29 vector
registers are unchanged; the history has gained exactly one read for each active pair, `3 * popcount(mask)` in all; `pc` is
`pc + 4`; nothing else changed (but `draws`, the model's own, log 6). The modular address is the spec's choice D7 (log 10),
`pc + 4` its choice D11 (log 11), the 16-byte figure its choice D5 (log 9). Each byte is readable in the state in which it is
read, with the reads before it in the history (R12, R47); their order is the spec's choice D9 (log 18). -/
def Obligations.Ld3bCompletesWithTheDeinterleavedBytes : Prop :=
  ∀ (zt : Fin 32) (pg : Fin 8) (rn : BaseReg) (m : Fin 31) (s : State),
    Enabled s → SpCheckPasses s rn →
    (∀ (e : Nat) (r : Fin 3), e < s.params.vl / 8 → s.p[pg.val].getLsbD e = true → Readable s pg rn m e r) →
    ∃ (zs : Vector (BitVec s.params.vl) 32) (evs : List ReadEvent),
      exec (.ld3b zt pg rn m.castSucc) s =
        .next { s with z := zs, pc := s.pc + 4, events := s.events ++ evs, draws := s.draws + 1 } ∧
      (∀ (r : Fin 3) (e : Nat), e < s.params.vl / 8 →
        elem zs[(zt.val + r.val) % 32] e =
          if s.p[pg.val].getLsbD e then oracle s (byteAddress s rn m e r) else 0) ∧
      (∀ i : Fin 32, (∀ r : Fin 3, i.val ≠ (zt.val + r.val) % 32) → zs[i.val] = s.z[i.val]) ∧
      (∀ ev, ev ∈ evs ↔
        ∃ e r, e < s.params.vl / 8 ∧ s.p[pg.val].getLsbD e = true ∧ ev = byteEvent s rn m e r) ∧
      evs.Nodup ∧ evs.length = 3 * activeCount s.p[pg.val]

/-- Under the simulator oracle, that is where the launch memory lists every active byte, the bytes loaded are the launch
memory's (R48, R90). (The oracle is the spec's choice D17, log 5; the modular address its choice D7, log 10.) -/
def Obligations.Ld3bLoadsTheLaunchMemory : Prop :=
  ∀ (zt : Fin 32) (pg : Fin 8) (rn : BaseReg) (m : Fin 31) (s t : State) (launch : Dword → Byte),
    (∀ (e : Nat) (r : Fin 3), e < s.params.vl / 8 → s.p[pg.val].getLsbD e = true →
      s.mem.byteAt (byteAddress s rn m e r).toNat = some (launch (byteAddress s rn m e r))) →
    exec (.ld3b zt pg rn m.castSucc) s = .next t →
    ∀ (r : Fin 3) (e : Nat), e < s.params.vl / 8 →
      elem t.z[(zt.val + r.val) % 32] e =
        if s.p[pg.val].getLsbD e then launch (byteAddress s rn m e r) else 0

/-- With no element active LD3B completes whatever memory would say: no read, the three destinations zero in every bit,
nothing else changed but `pc` (R85, R89). (`pc + 4` is the spec's choice D11, log 11.) -/
def Obligations.Ld3bWithNoActiveElementZeroes : Prop :=
  ∀ (zt : Fin 32) (pg : Fin 8) (rn : BaseReg) (m : Fin 31) (s : State),
    Enabled s → SpCheckPasses s rn → s.p[pg.val] = 0 →
    ∃ zs : Vector (BitVec s.params.vl) 32,
      exec (.ld3b zt pg rn m.castSucc) s = .next { s with z := zs, pc := s.pc + 4, draws := s.draws + 1 } ∧
      (∀ r : Fin 3, zs[(zt.val + r.val) % 32] = 0) ∧
      (∀ i : Fin 32, (∀ r : Fin 3, i.val ≠ (zt.val + r.val) % 32) → zs[i.val] = s.z[i.val])

/-- Inactive elements (R85): in each of the three destinations they are zero; no read is made for them and no fault arises
from them; the address still advances past their bytes, so an active element's bytes are read at `A + 3e + r` whatever is
inactive before it; and the old contents of the destination registers never survive: another content beforehand gives, where
LD3B completes with it too, the same destinations under the same free values (log 6), and it does complete with it where the
parameters that are functions of the state (log 1) answer the same. (That `A + 3e + r` wraps modulo 2^64 is the spec's choice
D7, log 10.) -/
def Obligations.InactiveElementsAreZeroedAndSkipped : Prop :=
  (∀ (zt : Fin 32) (pg : Fin 8) (rn : BaseReg) (m : Fin 31) (s t : State),
    exec (.ld3b zt pg rn m.castSucc) s = .next t →
    (∀ (e : Nat) (r : Fin 3), e < s.params.vl / 8 → s.p[pg.val].getLsbD e = false →
      elem t.z[(zt.val + r.val) % 32] e = 0) ∧
    (∃ evs, t.events = s.events ++ evs ∧
      (∀ ev ∈ evs, s.p[pg.val].getLsbD ev.e = true) ∧
      (∀ (e : Nat) (r : Fin 3), e < s.params.vl / 8 → s.p[pg.val].getLsbD e = true →
        byteEvent s rn m e r ∈ evs)) ∧
    (∀ zs : Vector (BitVec s.params.vl) 32,
      (∀ t', exec (.ld3b zt pg rn m.castSucc) { s with z := zs } = .next t' →
        ∀ (e : Nat) (r : Fin 3), e < s.params.vl / 8 →
          elem t'.z[(zt.val + r.val) % 32] e = elem t.z[(zt.val + r.val) % 32] e) ∧
      (HelpersAgree s { s with z := zs } → ∃ t', exec (.ld3b zt pg rn m.castSucc) { s with z := zs } = .next t'))) ∧
  (∀ (zt : Fin 32) (pg : Fin 8) (rn : BaseReg) (rm : Fin 32) (s : State) (f : FaultInfo) (e : Nat) (r : Fin 3)
    (pc : Dword) (left : State), exec (.ld3b zt pg rn rm) s = .fault (.dataAbort f e r pc left) →
    s.p[pg.val].getLsbD e = true)

/-- THE FRAME of LD3B (R91): a completed LD3B changes only the three destination registers, `pc` and the history (and
`draws`, the model's own). Every general register, the stack pointer, every predicate register, the other 29 vector
registers, `PSTATE.DIT`, the parameters, the fault record, the refused mark and every byte of memory are unchanged. (Two
vectors of the same length with the same number are the same.) -/
def Obligations.Ld3bFrame : Prop :=
  ∀ (zt : Fin 32) (pg : Fin 8) (rn : BaseReg) (rm : Fin 32) (s t : State),
    exec (.ld3b zt pg rn rm) s = .next t →
    t.params = s.params ∧ t.x = s.x ∧ t.sp = s.sp ∧
    (∀ g : Fin 8, t.p[g.val].toNat = s.p[g.val].toNat) ∧
    (∀ i : Fin 32, (∀ r : Fin 3, i.val ≠ (zt.val + r.val) % 32) → t.z[i.val].toNat = s.z[i.val].toNat) ∧
    t.dit = s.dit ∧ t.fault = s.fault ∧ t.refused = s.refused ∧
    (∀ a, t.mem.byteAt a = s.mem.byteAt a) ∧ (∃ evs, t.events = s.events ++ evs)

/-- Every read LD3B records, whether it completes or aborts, carries the one access descriptor (R46): a load, not
non-temporal, contiguous, predicated, tag checked; and the parameter `MemFault` was asked under it, of a read that was made
and of the one that failed, each in the state with the reads before it in the history (R47). -/
def Obligations.EveryReadCarriesTheDescriptor : Prop :=
  (∀ (zt : Fin 32) (pg : Fin 8) (rn : BaseReg) (rm : Fin 32) (s t : State),
    exec (.ld3b zt pg rn rm) s = .next t →
    ∃ evs, t.events = s.events ++ evs ∧
      ∀ pre ev post, evs = pre ++ ev :: post → ev.acc =
          { memOp := .load, nontemporal := false, contiguous := true, predicated := true, tagChecked := true } ∧
        memFault (addEvents pre s) ev.addr ev.acc = none) ∧
  (∀ (zt : Fin 32) (pg : Fin 8) (rn : BaseReg) (rm : Fin 32) (s : State) (f : FaultInfo) (e : Nat) (r : Fin 3)
    (pc : Dword) (left : State), exec (.ld3b zt pg rn rm) s = .fault (.dataAbort f e r pc left) →
    ∃ evs, left.events = s.events ++ evs ∧
      memFault (addEvents evs s) f.addr
        { memOp := .load, nontemporal := false, contiguous := true, predicated := true, tagChecked := true } = some f ∧
      ∀ pre ev post, evs = pre ++ ev :: post → ev.acc =
          { memOp := .load, nontemporal := false, contiguous := true, predicated := true, tagChecked := true } ∧
        memFault (addEvents pre s) ev.addr ev.acc = none)

/-- At a legal vector length the reads of one LD3B, completed or aborted, have pairwise distinct addresses: "two reads of the
same address within one LD3B: impossible" (R89). A completed one makes at most `3 * VL/8` of them, all of them when every
element is active (R44, R89); an aborted one has recorded fewer, and the read that failed was of none of their addresses.
(Modular addresses are the spec's choice D7, log 10; the legal lengths its choice D2, log 20; that each active byte is read
once its choice D26, log 19.) -/
def Obligations.ReadsOfOneLd3bAreDistinct : Prop :=
  (∀ (zt : Fin 32) (pg : Fin 8) (rn : BaseReg) (rm : Fin 32) (s t : State),
    s.params.vlLegal = true → exec (.ld3b zt pg rn rm) s = .next t →
    ∃ evs, t.events = s.events ++ evs ∧ (evs.map ReadEvent.addr).Nodup ∧
      evs.length ≤ 3 * (s.params.vl / 8) ∧
      (s.p[pg.val] = BitVec.allOnes _ → evs.length = 3 * (s.params.vl / 8))) ∧
  (∀ (zt : Fin 32) (pg : Fin 8) (rn : BaseReg) (rm : Fin 32) (s : State) (f : FaultInfo) (e : Nat) (r : Fin 3)
    (pc : Dword) (left : State),
    s.params.vlLegal = true → exec (.ld3b zt pg rn rm) s = .fault (.dataAbort f e r pc left) →
    ∃ evs, left.events = s.events ++ evs ∧ (evs.map ReadEvent.addr).Nodup ∧
      evs.length < 3 * (s.params.vl / 8) ∧ f.addr ∉ evs.map ReadEvent.addr)

/-- The loaded bytes depend on memory only at the active addresses: another memory that lists the same there, and of which
the parameters that are functions of the state (log 1) answer the same, gives the same result, under the same free values
(R45, R85; log 6). (The oracle is the spec's choice D17, log 5; the modular address D7, log 10.) -/
def Obligations.OnlyActiveBytesOfMemoryMatter : Prop :=
  ∀ (zt : Fin 32) (pg : Fin 8) (rn : BaseReg) (m : Fin 31) (s t : State) (other : Memory),
    (∀ (e : Nat) (r : Fin 3), e < s.params.vl / 8 → s.p[pg.val].getLsbD e = true →
      other.byteAt (byteAddress s rn m e r).toNat = s.mem.byteAt (byteAddress s rn m e r).toNat) →
    HelpersAgree s { s with mem := other } →
    exec (.ld3b zt pg rn m.castSucc) s = .next t →
    exec (.ld3b zt pg rn m.castSucc) { s with mem := other } = .next { t with mem := other }

/-- `PSTATE.DIT` is a timing property only: no value and no outcome of a completed LD3B depends on it (R25, R93, R133), under
the same free values (log 6). (The field is the model's, log 22; that no parameter's answer depends on it is log 1.) -/
def Obligations.DitHasNoEffectOnValues : Prop :=
  ∀ (i : Instr) (s t : State) (b : Bool), exec i s = .next t → exec i { s with dit := b } = .next { t with dit := b }

/-! ## Faults of LD3B -/

/-- Inactive elements never fault and are never read (R105). Every read of an LD3B that completes is of an active element, and
what `MemFault` says of any other access does not matter to it: another `MemFault` that faults none of its reads, each in the
state in which it is made, gives the same next state, under the same free values (log 6); every read recorded at a data abort,
and the one that failed, is of an active element; and with no element active LD3B raises nothing but `UndefinedInstruction`,
`SveAccessTrap`, or, with base SP and the free Boolean of this execution true (the spec's choice D6, log 6),
`SPAlignmentFault`. -/
def Obligations.InactiveElementsNeverFault : Prop :=
  (∀ (zt : Fin 32) (pg : Fin 8) (rn : BaseReg) (rm : Fin 32) (s t : State), exec (.ld3b zt pg rn rm) s = .next t →
    ∃ evs, t.events = s.events ++ evs ∧ (∀ ev ∈ evs, s.p[pg.val].getLsbD ev.e = true) ∧
      ∀ other : List FaultRegion,
        (∀ pre ev post, evs = pre ++ ev :: post →
          memFault (withMemFault other (addEvents pre s)) ev.addr ev.acc = none) →
        exec (.ld3b zt pg rn rm) (withMemFault other s) = .next (withMemFault other t)) ∧
  (∀ (zt : Fin 32) (pg : Fin 8) (rn : BaseReg) (rm : Fin 32) (s : State) (f : FaultInfo) (e : Nat) (r : Fin 3)
    (pc : Dword) (left : State), exec (.ld3b zt pg rn rm) s = .fault (.dataAbort f e r pc left) →
    s.p[pg.val].getLsbD e = true ∧
    ∃ evs, left.events = s.events ++ evs ∧ ∀ ev ∈ evs, s.p[pg.val].getLsbD ev.e = true) ∧
  (∀ (zt : Fin 32) (pg : Fin 8) (rn : BaseReg) (rm : Fin 32) (s : State) (flt : Fault), s.p[pg.val] = 0 →
    exec (.ld3b zt pg rn rm) s = .fault flt →
    (∃ w pc left, flt = .undefinedInstruction w pc left) ∨ (∃ k pc left, flt = .sveAccessTrap k pc left) ∨
    (∃ pc sp left, flt = .spAlignmentFault pc sp left ∧ rn = .sp ∧ Config.checkSpNoneActive s.draws = true))

/-- `UndefinedInstruction` (R101): a step at a word of the pattern with `Rm = 11111`, or without both features, raises it
whatever the rest of the state is (so before the enable check, any register read and any memory access), and the state it
leaves is the state before it with the fault record set. -/
def Obligations.UndefinedInstructionChangesNoState : Prop :=
  ∀ (s : State) (w : Word), RunsWord s w → w &&& 0xFFE0E000#32 = 0xA440C000#32 →
    (w &&& 0x001F0000#32 = 0x001F0000#32 ∨ (s.params.features.sve = false ∧ s.params.features.sme = false)) →
    step s = .fault (.undefinedInstruction w s.pc { s with fault := some (.undefinedInstruction w s.pc) })

/-- The meaning itself answers so for operands the decoder never gives it: an ill-formed index, or no feature (R65, R66;
log 26). -/
def Obligations.ExecOfUndefinedOperandsRaises : Prop :=
  ∀ (zt : Fin 32) (pg : Fin 8) (rn : BaseReg) (rm : Fin 32) (s : State),
    (rm = 31 ∨ (s.params.features.sve = false ∧ s.params.features.sme = false)) →
    exec (.ld3b zt pg rn rm) s =
      .fault (.undefinedInstruction (encode (.ld3b zt pg rn rm)) s.pc
        { s with fault := some (.undefinedInstruction (encode (.ld3b zt pg rn rm)) s.pc) })

/-- `SveAccessTrap(k)` (R81, R102): where the instruction is defined and `SveCheck` traps in this state, LD3B raises it whatever
the registers and memory are, and changes no state but the fault record: "on `trap(k)` the instruction faults with
`SveAccessTrap(k)` and changes no state" (R9). (That the outcome of the check is a parameter is the spec's choice D4, log 1;
that the destination registers too are unchanged, which R107 and D10 leave open at a fault, is R9's word, log 7.) -/
def Obligations.DisabledSveTraps : Prop :=
  ∀ (zt : Fin 32) (pg : Fin 8) (rn : BaseReg) (m : Fin 31) (s : State) (k : Nat),
    (s.params.features.sve = true ∨ s.params.features.sme = true) → sveCheck s = .trap k →
    exec (.ld3b zt pg rn m.castSucc) s =
      .fault (.sveAccessTrap k s.pc { s with fault := some (.sveAccessTrap k s.pc) })

/-- `SPAlignmentFault` (R82, R103): base SP, an element active, the check armed and `sp[3:0]` not 0. No read precedes it;
everything but the three destinations (which hold any value, R107) and the fault record is unchanged. (The 16-byte figure is
the spec's choice D5, log 9; that the destinations are free is its choice D10, log 7.) -/
def Obligations.MisalignedStackPointerFaults : Prop :=
  ∀ (zt : Fin 32) (pg : Fin 8) (rn : BaseReg) (m : Fin 31) (s : State),
    Enabled s → SpCheckWouldFault s rn → s.p[pg.val] ≠ 0 →
    ∃ zs : Vector (BitVec s.params.vl) 32,
      exec (.ld3b zt pg rn m.castSucc) s =
        .fault (.spAlignmentFault s.pc s.sp
          { s with z := zs, draws := s.draws + 1, fault := some (.spAlignmentFault s.pc s.sp) }) ∧
      (∀ i : Fin 32, (∀ r : Fin 3, i.val ≠ (zt.val + r.val) % 32) → zs[i.val] = s.z[i.val])

/-- With no element active, a check that would fault is made or not as the free Boolean of this execution says: LD3B then
raises `SPAlignmentFault` or completes with three zero registers; the model admits both (R11, R82, U1; log 6). -/
def Obligations.MisalignedStackPointerWithNoActiveElement : Prop :=
  ∀ (zt : Fin 32) (pg : Fin 8) (rn : BaseReg) (m : Fin 31) (s : State),
    Enabled s → SpCheckWouldFault s rn → s.p[pg.val] = 0 →
    ∃ zf zs : Vector (BitVec s.params.vl) 32,
      (exec (.ld3b zt pg rn m.castSucc) s =
        if Config.checkSpNoneActive s.draws then
          .fault (.spAlignmentFault s.pc s.sp
            { s with z := zf, draws := s.draws + 1, fault := some (.spAlignmentFault s.pc s.sp) })
        else .next { s with z := zs, pc := s.pc + 4, draws := s.draws + 1 }) ∧
      (∀ r : Fin 3, zs[(zt.val + r.val) % 32] = 0) ∧
      (∀ i : Fin 32, (∀ r : Fin 3, i.val ≠ (zt.val + r.val) % 32) →
        zf[i.val] = s.z[i.val] ∧ zs[i.val] = s.z[i.val])

/-- With a general register as base there is never an `SPAlignmentFault`, whatever its value, `sp` and the predicate (R82,
R43). -/
def Obligations.GeneralBaseIsNeverChecked : Prop :=
  ∀ (zt : Fin 32) (pg : Fin 8) (n : Fin 31) (rm : Fin 32) (s : State) (pc sp : Dword) (left : State),
    exec (.ld3b zt pg (.x n) rm) s ≠ .fault (.spAlignmentFault pc sp left)

/-- `DataAbort(f)` (R104): if the read of some active byte would fault, in the state with the active reads before it in the
history, LD3B raises a data abort for an active byte, with the information `MemFault` gives of it in the state with the reads
that were made in the history, which records the address; every read that was made is of an active byte whose read does not
fault; `pc` and everything else but the three destinations (which hold any value, R107; log 7) is unchanged. Which of several
failing bytes is reported is not said here (R49, R106; log 18). -/
def Obligations.FailingActiveByteAborts : Prop :=
  ∀ (zt : Fin 32) (pg : Fin 8) (rn : BaseReg) (m : Fin 31) (s : State) (e₀ : Nat) (r₀ : Fin 3),
    Enabled s → SpCheckPasses s rn →
    e₀ < s.params.vl / 8 → s.p[pg.val].getLsbD e₀ = true → ¬Readable s pg rn m e₀ r₀ →
    ∃ (f : FaultInfo) (e : Nat) (r : Fin 3) (zs : Vector (BitVec s.params.vl) 32) (evs : List ReadEvent),
      e < s.params.vl / 8 ∧ s.p[pg.val].getLsbD e = true ∧
      memFault (addEvents evs s) (byteAddress s rn m e r) ld3bAccDesc = some f ∧ f.addr = byteAddress s rn m e r ∧
      exec (.ld3b zt pg rn m.castSucc) s =
        .fault (.dataAbort f e r s.pc
          { s with z := zs, events := s.events ++ evs, draws := s.draws + 1,
                   fault := some (.dataAbort f e r s.pc) }) ∧
      (∀ i : Fin 32, (∀ r : Fin 3, i.val ≠ (zt.val + r.val) % 32) → zs[i.val] = s.z[i.val]) ∧
      (∀ ev ∈ evs, ∃ e' r', e' < s.params.vl / 8 ∧ s.p[pg.val].getLsbD e' = true ∧
        Readable s pg rn m e' r' ∧ ev = byteEvent s rn m e' r')

/-- THE MODEL'S CHOICE (R106 and D10: the spec's own decision, log 18): the data abort reported is the first failing active
byte with `e` ascending, then `r`; and the reads in the history are those of the active bytes before it. -/
def Obligations.FirstFailingByteIsReported : Prop :=
  ∀ (zt : Fin 32) (pg : Fin 8) (rn : BaseReg) (m : Fin 31) (s : State) (e : Nat) (r : Fin 3) (f : FaultInfo),
    Enabled s → SpCheckPasses s rn →
    e < s.params.vl / 8 → s.p[pg.val].getLsbD e = true →
    memFault (stateAtRead s pg rn m e r) (byteAddress s rn m e r) ld3bAccDesc = some f →
    (∀ (e' : Nat) (r' : Fin 3), e' < e ∨ (e' = e ∧ r' < r) → s.p[pg.val].getLsbD e' = true →
      Readable s pg rn m e' r') →
    ∃ left, exec (.ld3b zt pg rn m.castSucc) s = .fault (.dataAbort f e r s.pc left) ∧
      ∃ evs, left.events = s.events ++ evs ∧
        ∀ ev, ev ∈ evs ↔ ∃ e' r', (e' < e ∨ (e' = e ∧ r' < r)) ∧ s.p[pg.val].getLsbD e' = true ∧
          ev = byteEvent s rn m e' r'

/-- What a fault of LD3B leaves (R107): whatever it is, the fault record is set, the history only grows, and `pc`, `x`, `sp`,
`p`, the 29 other vector registers, memory and the parameters are unchanged. (Part of R107 is the spec's own decision, D10
and D13; log 7, log 8.) -/
def Obligations.FaultLeavesAllButTheDestinations : Prop :=
  ∀ (zt : Fin 32) (pg : Fin 8) (rn : BaseReg) (rm : Fin 32) (s : State) (flt : Fault),
    exec (.ld3b zt pg rn rm) s = .fault flt →
    ∃ (rec : FaultRecord) (zs : Vector (BitVec s.params.vl) 32) (evs : List ReadEvent) (k : Nat),
      flt = faultOf rec { s with z := zs, events := s.events ++ evs, draws := k, fault := some rec } ∧
      (∀ i : Fin 32, (∀ r : Fin 3, i.val ≠ (zt.val + r.val) % 32) → zs[i.val] = s.z[i.val])

/-- No instruction is ever refused by its meaning: it completes or raises one of the four faults (R100). (That a fault is
terminal is the spec's choice D13, log 8.) -/
def Obligations.NoInstructionIsRefused : Prop :=
  ∀ (i : Instr) (s : State) (why : Refusal), exec i s ≠ .refused why

/-! ## Memory -/

/-- The read primitive (R47): a fault of `MemFault` in this state is answered with information that records the address; else
the event to record is answered, whose byte is the oracle's: the launch memory's byte where it lists one (R48). (The split
into `MemFault` and an oracle is the spec's choice D8, D17; log 5, log 24.) -/
def Obligations.ReadFaultsOrAnswersTheOraclesByte : Prop :=
  ∀ (s : State) (a : Dword) (acc : AccDesc) (e : Nat) (r : Fin 3),
    (∀ f, memFault s a acc = some f → memRead s a acc e r = .error f ∧ f.addr = a) ∧
    (memFault s a acc = none → ∃ ev, memRead s a acc e r = .ok ev ∧
      ev.pc = s.pc ∧ ev.e = e ∧ ev.r = r ∧ ev.addr = a ∧ ev.acc = acc ∧ ev.byte = oracle s a) ∧
    (∀ b, s.mem.byteAt a.toNat = some b → oracle s a = b)

/-- THE MODEL'S CHOICE (log 1): the conditions by which `SveCheck`, `SpAlignCheck` and `MemFault` depend on the state (R9, R10,
R12) tell apart any two states that differ in a register, in the byte the memory lists at an address, or in the number of
reads made. (With negation and conjunction, any table of states and answers can be written.) -/
def Obligations.ConditionsTellStatesApart : Prop :=
  ∀ (vl : Nat) (v w : View vl),
    (v.x ≠ w.x ∨ v.sp ≠ w.sp ∨ v.pc ≠ w.pc ∨ v.z ≠ w.z ∨ v.p ≠ w.p ∨
      (∃ a : Dword, v.mem.byteAt a.toNat ≠ w.mem.byteAt a.toNat) ∨ v.events.length ≠ w.events.length) →
    ∃ c : StateCond, StateCond.holds c v = true ∧ StateCond.holds c w = false

/-- The start address is a sum modulo 2^64 (R83): for every base and index it is the base's value plus `x[m]` on 64 bits, the
remainder of the sum of the two numbers; with the same register as base and index it is twice the register (R89), and with an
index of all ones it is the base minus one, for any base (R83, R89). (Modular addition is the spec's choice D7, log 10.) -/
def Obligations.StartAddressIsAModularSum : Prop :=
  (∀ (s : State) (n m : Fin 31), startAddress s (.x n) m = s.x[n.val] + s.x[m.val] ∧
    (startAddress s (.x n) m).toNat = (s.x[n.val].toNat + s.x[m.val].toNat) % 2 ^ 64) ∧
  (∀ (s : State) (m : Fin 31), startAddress s .sp m = s.sp + s.x[m.val] ∧
    (startAddress s .sp m).toNat = (s.sp.toNat + s.x[m.val].toNat) % 2 ^ 64) ∧
  (∀ (s : State) (n : Fin 31), startAddress s (.x n) n = 2 * s.x[n.val]) ∧
  (∀ (s : State) (n m : Fin 31), s.x[m.val] = BitVec.allOnes 64 →
    startAddress s (.x n) m = s.x[n.val] - 1 ∧ startAddress s .sp m = s.sp - 1)

/-- The three destination numbers are pairwise distinct for every `t`, and wrap from 31 to 0 (R31, R64). -/
def Obligations.DestinationsAreDistinctAndWrap : Prop :=
  (∀ (t : Fin 32) (r r' : Fin 3), r ≠ r' → destReg t r ≠ destReg t r') ∧
  [destReg 30 0, destReg 30 1, destReg 30 2] = [30, 31, 0] ∧ [destReg 31 0, destReg 31 1, destReg 31 2] = [31, 0, 1]

/-! ## The step and the run -/

/-- A STEP RUNS THE DECODED INSTRUCTION (R134): with the `k`-th word of a well-formed program at `pc`, the machine not
stopped and its vector length usable, and that word decoding to `i`, the step is the meaning of `i`; nothing is added around
it, and `i` is well formed. (What a program and its run are is the spec's choice D19, log 14; the fetch its choice D18, log
13.) -/
def Obligations.StepRunsTheDecodedInstruction : Prop :=
  ∀ (s : State) (k : Nat) (w : Word) (i : Instr),
    s.fault = none → s.refused = false → s.params.vlUsable = true → s.params.programWf = true →
    4 * s.params.text.length < 2 ^ 64 → s.params.text[k]? = some w → s.pc = textAddress s.params k →
    decode s.params.features w = .instr i → step s = exec i s ∧ i.wf = true

/-- THE SPEC'S OWN CHOICE (R68, D22, log 15): a step at a word outside the pattern refuses, with the refused mark set and
nothing else changed. -/
def Obligations.WordNotShownIsRefused : Prop :=
  ∀ (s : State) (w : Word), RunsWord s w → w &&& 0xFFE0E000#32 ≠ 0xA440C000#32 →
    step s = .refused (.notShown w s.pc { s with refused := true })

/-- THE SPEC'S OWN CHOICE (R134, D19, log 14): a machine whose fault record or refused mark is set has no step; at the
address after the text the run has ended; at an address that is no word of the text the machine refuses; and at a vector
length that is not a positive multiple of 8 it refuses (U18, log 20). -/
def Obligations.WhereThereIsNoStep : Prop :=
  (∀ (s : State) (rec : FaultRecord), s.fault = some rec → step s = .fault (faultOf rec s)) ∧
  (∀ s : State, s.fault = none → s.refused = true → step s = .refused (.alreadyRefused s)) ∧
  (∀ s : State, s.fault = none → s.refused = false → ¬(s.params.vl % 8 = 0 ∧ 0 < s.params.vl) →
    step s = .refused (.illegalVectorLength s.params.vl)) ∧
  (∀ s : State, s.fault = none → s.refused = false → s.params.vlUsable = true →
    s.pc = textAddress s.params s.params.text.length → step s = .refused (.endOfRun s)) ∧
  (∀ s : State, s.fault = none → s.refused = false → s.params.vlUsable = true →
    (∀ k, k ≤ s.params.text.length → s.pc ≠ textAddress s.params k) →
    step s = .refused (.noWordAtPc s.pc { s with refused := true }))

/-- No step changes the parameters (the vector length is "constant for a whole run", R7; the text is "immutable for the run",
R55) or the memory (R44). (The constant vector length is the spec's choice D2, log 20; the immutable text D18, log 13; that
the parameters are data log 1.) -/
def Obligations.StepKeepsParametersAndMemory : Prop :=
  ∀ s t : State, step s = .next t → t.params = s.params ∧ t.mem = s.mem

/-- THE INVARIANT OF A RUN is kept by every step: the configuration and the program stay well formed, the memory stays in
canonical form, no fault and no refusal is recorded, `pc` is the address of a word of the text or the one after it (so it
stays a multiple of 4, R22), and every recorded read is one an LD3B makes, with the launch memory's byte where that lists one
(R46, R48). (What a run is is the spec's choice D19, log 14; `pc` D11, log 11; the oracle D17, log 5.) -/
def Obligations.StepKeepsTheInvariant : Prop :=
  ∀ s t : State, Inv s → step s = .next t → Inv t

/-- The invariant holds at reset and at every launch state with a usable vector length and a canonical memory (R130, R134).
(The registers' and parameters' values at reset are the model's choice, log 2, log 3.) -/
def Obligations.InvariantHoldsAtResetAndLaunch : Prop :=
  Inv State.reset ∧ Launch State.reset ∧
  ∀ s : State, Launch s → s.params.vlUsable = true → s.mem.wf = true → Inv s

/-- EVERY RUN ENDS, faults or refuses within `length(Text)` steps (R134): from a launch state, `k` completed steps mean `k <=
length(Text)`, `pc = TextBase + 4k` and no fault or refusal; and after `length(Text)` of them the run is final. (What a run
and its end are is the spec's choice D19, log 14; `pc + 4` D11, log 11; that a fault is terminal D13, log 8.) -/
def Obligations.EveryRunEndsWithinItsText : Prop :=
  ∀ (s t : State) (k : Nat), Launch s → Sys2Proof.core.run k s = .next t →
    k ≤ s.params.text.length ∧ t.pc = textAddress s.params k ∧ t.fault = none ∧ t.refused = false ∧
    (k = s.params.text.length → Final t)

/-- The word the host places is the one the next step runs (log 21): the step decodes it and runs its instruction, in any
state with a usable vector length. -/
def Obligations.PlacedWordIsTheNextRun : Prop :=
  ∀ (s : State) (w : Word) (i : Instr), s.params.vlUsable = true → decode s.params.features w = .instr i →
    step (s.withFetchWord 32 w.toNat) = exec i (s.withFetchWord 32 w.toNat)
end

