-- ==== Sys2Proof/Laws/Codec.lean ====
section
/-! SUPPORT. Laws of the decoder and the encoder, field by field (R61 to R65), and of the bytes of a word (R42). -/

namespace Sys2Proof

/-! ## A word as its six parts (R61) -/

/-- A word laid out by the diagram of R61: bits 31:21, `Rm`, bits 15:13, `Pg`, `Rn`, `Zt`. -/
def layout (a : BitVec 11) (m : BitVec 5) (b g : BitVec 3) (n t : BitVec 5) : Word := a ++ m ++ b ++ g ++ n ++ t

/-- The encoder lays the operands out (R61). -/
theorem encode_eq_layout (zt : Fin 32) (pg : Fin 8) (rn : BaseReg) (rm : Fin 32) :
    encode (.ld3b zt pg rn rm) =
      layout 0b10100100010#11 (BitVec.ofFin rm) 0b110#3 (BitVec.ofFin pg) (BitVec.ofFin (fieldOfBase rn)) (BitVec.ofFin zt) :=
  rfl

/-- Every word is laid out from its parts. -/
theorem layout_parts (w : Word) :
    layout (w.extractLsb' 21 11) (w.extractLsb' 16 5) (w.extractLsb' 13 3) (w.extractLsb' 10 3) (w.extractLsb' 5 5)
      (w.extractLsb' 0 5) = w := by
  apply BitVec.eq_of_getLsbD_eq
  intro i hi
  simp only [layout, BitVec.getLsbD_append, BitVec.getLsbD_extractLsb']
  split_ifs <;> grind

section Parts
variable (a : BitVec 11) (m : BitVec 5) (b g : BitVec 3) (n t : BitVec 5)

theorem layout_zt : (layout a m b g n t).extractLsb' 0 5 = t := by
  apply BitVec.eq_of_getLsbD_eq
  intro i hi
  simp only [layout, BitVec.getLsbD_extractLsb', BitVec.getLsbD_append, hi]
  simp (disch := omega) only [if_pos]
  simp

theorem layout_rn : (layout a m b g n t).extractLsb' 5 5 = n := by
  apply BitVec.eq_of_getLsbD_eq
  intro i hi
  simp only [layout, BitVec.getLsbD_extractLsb', BitVec.getLsbD_append, hi]
  simp (disch := omega) only [if_pos, if_neg]
  simp

theorem layout_pg : (layout a m b g n t).extractLsb' 10 3 = g := by
  apply BitVec.eq_of_getLsbD_eq
  intro i hi
  simp only [layout, BitVec.getLsbD_extractLsb', BitVec.getLsbD_append, hi]
  simp (disch := omega) only [if_pos, if_neg]
  simp; congr 1; omega

theorem layout_mid : (layout a m b g n t).extractLsb' 13 3 = b := by
  apply BitVec.eq_of_getLsbD_eq
  intro i hi
  simp only [layout, BitVec.getLsbD_extractLsb', BitVec.getLsbD_append, hi]
  simp (disch := omega) only [if_pos, if_neg]
  simp; congr 1; omega

theorem layout_rm : (layout a m b g n t).extractLsb' 16 5 = m := by
  apply BitVec.eq_of_getLsbD_eq
  intro i hi
  simp only [layout, BitVec.getLsbD_extractLsb', BitVec.getLsbD_append, hi]
  simp (disch := omega) only [if_pos, if_neg]
  simp; congr 1; omega

theorem layout_top : (layout a m b g n t).extractLsb' 21 11 = a := by
  apply BitVec.eq_of_getLsbD_eq
  intro i hi
  simp only [layout, BitVec.getLsbD_extractLsb', BitVec.getLsbD_append, hi]
  simp (disch := omega) only [if_neg]
  simp; congr 1; omega

/-- The mask of R62 keeps bits 31:21 and 15:13. -/
theorem layout_and_mask : layout a m b g n t &&& ld3bMask = layout a 0 b 0 0 0 := by
  have hm : ld3bMask = layout (BitVec.allOnes 11) 0 (BitVec.allOnes 3) 0 0 0 := by decide
  rw [hm]
  simp only [layout]
  rw [BitVec.and_append, BitVec.and_append, BitVec.and_append, BitVec.and_append, BitVec.and_append]
  simp only [BitVec.and_allOnes, BitVec.ofNat_eq_ofNat, BitVec.and_zero]

end Parts

/-- A word matches the row exactly when bits 31:21 are `10100100010` and bits 15:13 are `110` (R62). -/
theorem matches_iff (w : Word) :
    w &&& ld3bMask = ld3bMatch ↔ w.extractLsb' 21 11 = 0b10100100010#11 ∧ w.extractLsb' 13 3 = 0b110#3 := by
  have hw := layout_parts w
  have hk : ld3bMatch = layout 0b10100100010#11 0 0b110#3 0 0 0 := by decide
  constructor
  · intro h
    rw [← hw, layout_and_mask, hk] at h
    have ht := congrArg (fun v => BitVec.extractLsb' 21 11 v) h
    have hm := congrArg (fun v => BitVec.extractLsb' 13 3 v) h
    simp only [layout_top, layout_mid] at ht hm
    exact ⟨ht, hm⟩
  · rintro ⟨ht, hm⟩
    rw [← hw, layout_and_mask, hk, ht, hm]

/-! ## Base registers (R64) -/

@[simp] theorem baseOfField_fieldOfBase (rn : BaseReg) : baseOfField (fieldOfBase rn) = rn := by
  cases rn with
  | x n => simp [fieldOfBase, baseOfField]
  | sp => rfl

@[simp] theorem fieldOfBase_baseOfField (n : Fin 32) : fieldOfBase (baseOfField n) = n := by
  revert n; decide

/-! ## The fields of an encoded word -/

section Fields
variable (zt : Fin 32) (pg : Fin 8) (rn : BaseReg) (rm : Fin 32)

@[simp] theorem fieldZt_encode : fieldZt (encode (.ld3b zt pg rn rm)) = zt := by
  simp only [fieldZt, encode_eq_layout, layout_zt]

@[simp] theorem fieldRn_encode : fieldRn (encode (.ld3b zt pg rn rm)) = fieldOfBase rn := by
  simp only [fieldRn, encode_eq_layout, layout_rn]

@[simp] theorem fieldPg_encode : fieldPg (encode (.ld3b zt pg rn rm)) = pg := by
  simp only [fieldPg, encode_eq_layout, layout_pg]

@[simp] theorem fieldRm_encode : fieldRm (encode (.ld3b zt pg rn rm)) = rm := by
  simp only [fieldRm, encode_eq_layout, layout_rm]

@[simp] theorem operandsOf_encode : operandsOf (encode (.ld3b zt pg rn rm)) = .ld3b zt pg rn rm := by
  simp [operandsOf]

end Fields

/-! ## What the decoder can answer (R67) -/

/-- The decoder's three verdicts and when each is given: all it can do (R62, R65 to R68). -/
theorem decode_cases (f : Features) (w : Word) :
    (w &&& ld3bMask ≠ ld3bMatch ∧ decode f w = .notShown) ∨
    (w &&& ld3bMask = ld3bMatch ∧ (f.available = false ∨ fieldRm w = 31) ∧ decode f w = .undefined) ∨
    (w &&& ld3bMask = ld3bMatch ∧ f.available = true ∧ fieldRm w ≠ 31 ∧ decode f w = .instr (operandsOf w)) := by
  by_cases hw : w &&& ld3bMask = ld3bMatch
  · cases hf : f.available
    · exact .inr (.inl ⟨hw, .inl rfl, by simp [decode, hw, hf]⟩)
    · by_cases hm : fieldRm w = 31
      · exact .inr (.inl ⟨hw, .inr hm, by simp [decode, hw, hf, hm]⟩)
      · exact .inr (.inr ⟨hw, rfl, hm, by simp [decode, hw, hf, hm]⟩)
  · exact .inl ⟨hw, by simp [decode, hw]⟩

/-- What a word that decodes to an instruction is. -/
theorem decode_instr (f : Features) (w : Word) (i : Instr) (h : decode f w = .instr i) :
    w &&& ld3bMask = ld3bMatch ∧ f.available = true ∧ fieldRm w ≠ 31 ∧ i = operandsOf w := by
  rcases decode_cases f w with ⟨-, h'⟩ | ⟨-, -, h'⟩ | ⟨hw, hf, hm, h'⟩
  · rw [h'] at h; cases h
  · rw [h'] at h; cases h
  · rw [h'] at h; injection h with h; exact ⟨hw, hf, hm, h.symm⟩

/-! ## Bytes (R42) -/

/-- The bytes of a word read back. -/
@[simp] theorem wordOfBytes_wordBytes (w : Word) :
    wordOfBytes (w.extractLsb' 0 8) (w.extractLsb' 8 8) (w.extractLsb' 16 8) (w.extractLsb' 24 8) = w := by
  apply BitVec.eq_of_getLsbD_eq
  intro i hi
  simp only [wordOfBytes, BitVec.getLsbD_append, BitVec.getLsbD_extractLsb']
  split_ifs <;> grind

/-- The decoder of bytes is the decoder of words on the bytes of a word (R42). -/
theorem decodeBytes_wordBytes (f : Features) (w : Word) (rest : List Byte) :
    decodeBytes f (wordBytes w ++ rest) = .word (decode f w) rest := by
  simp only [wordBytes, List.cons_append, List.nil_append, decodeBytes, wordOfBytes_wordBytes]

end Sys2Proof
end

