-- ==== Sys2Proof/Laws/State.lean ====
section
/-! SUPPORT. What each update of the state leaves in each field: one lemma per field per update, true by rfl.
(The lemmas on `z` and `p` are not simp lemmas: the type of these fields names the vector length of their own state. The
lemmas on their elements in Laws/Exec.lean are the ones to cite.) -/

namespace Sys2Proof.Machine

/-! ### freeDests -/

@[simp] theorem freeDests_params (t : Fin 32) (s : State) : (freeDests t s).params = s.params := rfl

@[simp] theorem freeDests_x (t : Fin 32) (s : State) : (freeDests t s).x = s.x := rfl

@[simp] theorem freeDests_sp (t : Fin 32) (s : State) : (freeDests t s).sp = s.sp := rfl

@[simp] theorem freeDests_pc (t : Fin 32) (s : State) : (freeDests t s).pc = s.pc := rfl

theorem freeDests_z (t : Fin 32) (s : State) : (freeDests t s).z = writeDests s.z t (freeVectors s.draws s.params.vl) := rfl

theorem freeDests_p (t : Fin 32) (s : State) : (freeDests t s).p = s.p := rfl

@[simp] theorem freeDests_dit (t : Fin 32) (s : State) : (freeDests t s).dit = s.dit := rfl

@[simp] theorem freeDests_mem (t : Fin 32) (s : State) : (freeDests t s).mem = s.mem := rfl

@[simp] theorem freeDests_fault (t : Fin 32) (s : State) : (freeDests t s).fault = s.fault := rfl

@[simp] theorem freeDests_refused (t : Fin 32) (s : State) : (freeDests t s).refused = s.refused := rfl

@[simp] theorem freeDests_events (t : Fin 32) (s : State) : (freeDests t s).events = s.events := rfl

@[simp] theorem freeDests_draws (t : Fin 32) (s : State) : (freeDests t s).draws = s.draws + 1 := rfl

/-! ### addEvents -/

@[simp] theorem addEvents_params (evs : List ReadEvent) (s : State) : (addEvents evs s).params = s.params := rfl

@[simp] theorem addEvents_x (evs : List ReadEvent) (s : State) : (addEvents evs s).x = s.x := rfl

@[simp] theorem addEvents_sp (evs : List ReadEvent) (s : State) : (addEvents evs s).sp = s.sp := rfl

@[simp] theorem addEvents_pc (evs : List ReadEvent) (s : State) : (addEvents evs s).pc = s.pc := rfl

theorem addEvents_z (evs : List ReadEvent) (s : State) : (addEvents evs s).z = s.z := rfl

theorem addEvents_p (evs : List ReadEvent) (s : State) : (addEvents evs s).p = s.p := rfl

@[simp] theorem addEvents_dit (evs : List ReadEvent) (s : State) : (addEvents evs s).dit = s.dit := rfl

@[simp] theorem addEvents_mem (evs : List ReadEvent) (s : State) : (addEvents evs s).mem = s.mem := rfl

@[simp] theorem addEvents_fault (evs : List ReadEvent) (s : State) : (addEvents evs s).fault = s.fault := rfl

@[simp] theorem addEvents_refused (evs : List ReadEvent) (s : State) : (addEvents evs s).refused = s.refused := rfl

@[simp] theorem addEvents_events (evs : List ReadEvent) (s : State) : (addEvents evs s).events = s.events ++ evs := rfl

@[simp] theorem addEvents_draws (evs : List ReadEvent) (s : State) : (addEvents evs s).draws = s.draws := rfl

/-! ### completeLd3b -/

@[simp] theorem completeLd3b_params (t : Fin 32) (s : State) (l : Loaded s.params.vl) : (completeLd3b t s l).params = s.params := rfl

@[simp] theorem completeLd3b_x (t : Fin 32) (s : State) (l : Loaded s.params.vl) : (completeLd3b t s l).x = s.x := rfl

@[simp] theorem completeLd3b_sp (t : Fin 32) (s : State) (l : Loaded s.params.vl) : (completeLd3b t s l).sp = s.sp := rfl

@[simp] theorem completeLd3b_pc (t : Fin 32) (s : State) (l : Loaded s.params.vl) : (completeLd3b t s l).pc = nextPc s.pc := rfl

theorem completeLd3b_z (t : Fin 32) (s : State) (l : Loaded s.params.vl) : (completeLd3b t s l).z = writeDests s.z t l.vals := rfl

theorem completeLd3b_p (t : Fin 32) (s : State) (l : Loaded s.params.vl) : (completeLd3b t s l).p = s.p := rfl

@[simp] theorem completeLd3b_dit (t : Fin 32) (s : State) (l : Loaded s.params.vl) : (completeLd3b t s l).dit = s.dit := rfl

@[simp] theorem completeLd3b_mem (t : Fin 32) (s : State) (l : Loaded s.params.vl) : (completeLd3b t s l).mem = s.mem := rfl

@[simp] theorem completeLd3b_fault (t : Fin 32) (s : State) (l : Loaded s.params.vl) : (completeLd3b t s l).fault = s.fault := rfl

@[simp] theorem completeLd3b_refused (t : Fin 32) (s : State) (l : Loaded s.params.vl) : (completeLd3b t s l).refused = s.refused := rfl

@[simp] theorem completeLd3b_events (t : Fin 32) (s : State) (l : Loaded s.params.vl) : (completeLd3b t s l).events = s.events ++ l.events := rfl

@[simp] theorem completeLd3b_draws (t : Fin 32) (s : State) (l : Loaded s.params.vl) : (completeLd3b t s l).draws = s.draws + 1 := rfl

/-! ### markRefused -/

@[simp] theorem markRefused_params (s : State) : (markRefused s).params = s.params := rfl

@[simp] theorem markRefused_x (s : State) : (markRefused s).x = s.x := rfl

@[simp] theorem markRefused_sp (s : State) : (markRefused s).sp = s.sp := rfl

@[simp] theorem markRefused_pc (s : State) : (markRefused s).pc = s.pc := rfl

theorem markRefused_z (s : State) : (markRefused s).z = s.z := rfl

theorem markRefused_p (s : State) : (markRefused s).p = s.p := rfl

@[simp] theorem markRefused_dit (s : State) : (markRefused s).dit = s.dit := rfl

@[simp] theorem markRefused_mem (s : State) : (markRefused s).mem = s.mem := rfl

@[simp] theorem markRefused_fault (s : State) : (markRefused s).fault = s.fault := rfl

@[simp] theorem markRefused_refused (s : State) : (markRefused s).refused = true := rfl

@[simp] theorem markRefused_events (s : State) : (markRefused s).events = s.events := rfl

@[simp] theorem markRefused_draws (s : State) : (markRefused s).draws = s.draws := rfl

/-! ### launchWord -/

@[simp] theorem launchWord_x (w : Word) (s : State) : (launchWord w s).x = s.x := rfl

@[simp] theorem launchWord_sp (w : Word) (s : State) : (launchWord w s).sp = s.sp := rfl

@[simp] theorem launchWord_pc (w : Word) (s : State) : (launchWord w s).pc = s.pc &&& ~~~3#64 := rfl

theorem launchWord_z (w : Word) (s : State) : (launchWord w s).z = s.z := rfl

theorem launchWord_p (w : Word) (s : State) : (launchWord w s).p = s.p := rfl

@[simp] theorem launchWord_dit (w : Word) (s : State) : (launchWord w s).dit = s.dit := rfl

@[simp] theorem launchWord_mem (w : Word) (s : State) : (launchWord w s).mem = s.mem := rfl

@[simp] theorem launchWord_fault (w : Word) (s : State) : (launchWord w s).fault = none := rfl

@[simp] theorem launchWord_refused (w : Word) (s : State) : (launchWord w s).refused = false := rfl

@[simp] theorem launchWord_events (w : Word) (s : State) : (launchWord w s).events = s.events := rfl

@[simp] theorem launchWord_draws (w : Word) (s : State) : (launchWord w s).draws = s.draws := rfl

/-! ### withMemFault -/

@[simp] theorem withMemFault_x (fs : List FaultRegion) (s : State) : (withMemFault fs s).x = s.x := rfl

@[simp] theorem withMemFault_sp (fs : List FaultRegion) (s : State) : (withMemFault fs s).sp = s.sp := rfl

@[simp] theorem withMemFault_pc (fs : List FaultRegion) (s : State) : (withMemFault fs s).pc = s.pc := rfl

theorem withMemFault_z (fs : List FaultRegion) (s : State) : (withMemFault fs s).z = s.z := rfl

theorem withMemFault_p (fs : List FaultRegion) (s : State) : (withMemFault fs s).p = s.p := rfl

@[simp] theorem withMemFault_dit (fs : List FaultRegion) (s : State) : (withMemFault fs s).dit = s.dit := rfl

@[simp] theorem withMemFault_mem (fs : List FaultRegion) (s : State) : (withMemFault fs s).mem = s.mem := rfl

@[simp] theorem withMemFault_fault (fs : List FaultRegion) (s : State) : (withMemFault fs s).fault = s.fault := rfl

@[simp] theorem withMemFault_refused (fs : List FaultRegion) (s : State) : (withMemFault fs s).refused = s.refused := rfl

@[simp] theorem withMemFault_events (fs : List FaultRegion) (s : State) : (withMemFault fs s).events = s.events := rfl

@[simp] theorem withMemFault_draws (fs : List FaultRegion) (s : State) : (withMemFault fs s).draws = s.draws := rfl

@[simp] theorem launchWord_text (w : Word) (s : State) : (launchWord w s).params.text = [w] := rfl

@[simp] theorem launchWord_textBase (w : Word) (s : State) : (launchWord w s).params.textBase = s.pc &&& ~~~3#64 := rfl

@[simp] theorem launchWord_vl (w : Word) (s : State) : (launchWord w s).params.vl = s.params.vl := rfl

@[simp] theorem launchWord_features (w : Word) (s : State) : (launchWord w s).params.features = s.params.features := rfl

@[simp] theorem withMemFault_memFault (fs : List FaultRegion) (s : State) : (withMemFault fs s).params.memFault = fs := rfl

@[simp] theorem withMemFault_vl (fs : List FaultRegion) (s : State) : (withMemFault fs s).params.vl = s.params.vl := rfl

@[simp] theorem withMemFault_features (fs : List FaultRegion) (s : State) :
    (withMemFault fs s).params.features = s.params.features := rfl

/-! ### view (R9, R10, R12) -/

@[simp] theorem view_x (s : State) : s.view.x = s.x := rfl

@[simp] theorem view_sp (s : State) : s.view.sp = s.sp := rfl

@[simp] theorem view_pc (s : State) : s.view.pc = s.pc := rfl

@[simp] theorem view_z (s : State) : s.view.z = s.z := rfl

@[simp] theorem view_p (s : State) : s.view.p = s.p := rfl

@[simp] theorem view_mem (s : State) : s.view.mem = s.mem := rfl

@[simp] theorem view_events (s : State) : s.view.events = s.events := rfl

/-- `PSTATE.DIT` is no part of what a parameter's answer depends on (R25). -/
theorem view_dit (s : State) (b : Bool) : State.view { s with dit := b } = s.view := rfl

/-- Nor is the parameter `MemFault`. -/
theorem view_withMemFault (fs : List FaultRegion) (s : State) : (withMemFault fs s).view = s.view := rfl

/-- Adding no read changes nothing. -/
@[simp] theorem addEvents_nil (s : State) : addEvents [] s = s := by simp [addEvents]

/-- A raise answers a fault, and nothing else (R107). -/
theorem raiseFault_eq (rec : FaultRecord) (s : State) :
    raiseFault rec s = .fault (faultOf rec { s with fault := some rec }) := rfl

@[simp] theorem raiseFault_ne_next (rec : FaultRecord) (s t : State) : raiseFault rec s ≠ .next t := by
  simp [raiseFault]

@[simp] theorem raiseFault_ne_refused (rec : FaultRecord) (s : State) (r : Refusal) : raiseFault rec s ≠ .refused r := by
  simp [raiseFault]

/-- The state a completed LD3B leaves, written as one update of four fields (R91). -/
theorem completeLd3b_eq (t : Fin 32) (s : State) (l : Loaded s.params.vl) :
    completeLd3b t s l =
      { s with z := writeDests s.z t l.vals, pc := s.pc + 4, events := s.events ++ l.events, draws := s.draws + 1 } := rfl

end Sys2Proof.Machine
end

