-- ==== Sys2Proof/Laws/Elements.lean ====
section
/-! SUPPORT. Laws of byte elements (R18) and of the write-back of three registers (R86). -/

namespace Sys2Proof.Machine

/-! ## Byte elements -/

/-- Bit `i` of byte element `e` is bit `8e + i` of the vector (R18). -/
theorem getLsbD_elem {w : Nat} (v : BitVec w) (e i : Nat) (hi : i < 8) :
    (elem v e).getLsbD i = v.getLsbD (8 * e + i) := by
  simp [elem, hi]

/-- What `setElem` does to each bit. -/
theorem getLsbD_setElem {w : Nat} (v : BitVec w) (e : Nat) (b : Byte) (i : Nat) (hi : i < w) :
    (setElem v e b).getLsbD i =
      if 8 * e ≤ i ∧ i < 8 * e + 8 then b.getLsbD (i - 8 * e) else v.getLsbD i := by
  have ones : (255#8).getLsbD (i - 8 * e) = decide (i - 8 * e < 8) := by
    rw [show (255#8) = BitVec.allOnes 8 by decide, BitVec.getLsbD_allOnes]
  have hw : i - 8 * e < w := by omega
  simp only [setElem, BitVec.getLsbD_or, BitVec.getLsbD_and, BitVec.getLsbD_not, BitVec.getLsbD_shiftLeft,
    BitVec.getLsbD_setWidth, ones, hi, hw]
  by_cases h1 : i < 8 * e
  · simp [h1, Nat.not_le.mpr h1]
  · by_cases h2 : i < 8 * e + 8
    · simp [h1, h2, Nat.not_lt.mp h1, show i - 8 * e < 8 by omega]
    · simp [h1, h2, show ¬ i - 8 * e < 8 by omega, BitVec.getLsbD_of_ge b (i - 8 * e) (by omega)]

/-- The element just set reads back. -/
@[simp] theorem elem_setElem_same {w : Nat} (v : BitVec w) (e : Nat) (b : Byte) (he : 8 * e + 8 ≤ w) :
    elem (setElem v e b) e = b := by
  apply BitVec.eq_of_getLsbD_eq
  intro i hi
  rw [getLsbD_elem _ _ _ hi, getLsbD_setElem _ _ _ _ (by omega), if_pos (by omega)]
  congr 1
  omega

/-- Setting one element leaves the others. -/
theorem elem_setElem_other {w : Nat} (v : BitVec w) (e e' : Nat) (b : Byte) (he' : 8 * e' + 8 ≤ w) (h : e' ≠ e) :
    elem (setElem v e b) e' = elem v e' := by
  apply BitVec.eq_of_getLsbD_eq
  intro i hi
  rw [getLsbD_elem _ _ _ hi, getLsbD_elem _ _ _ hi, getLsbD_setElem _ _ _ _ (by omega), if_neg (by omega)]

/-- Setting an element of the zero vector to zero changes nothing. -/
@[simp] theorem setElem_zero_zero {w : Nat} (e : Nat) : setElem (0#w) e 0#8 = 0#w := by
  simp [setElem]

/-- Two vectors whose length is a multiple of 8 are equal when all their byte elements are. -/
theorem eq_of_elem_eq {w : Nat} (hw : w % 8 = 0) (u v : BitVec w) (h : ∀ e, e < w / 8 → elem u e = elem v e) : u = v := by
  apply BitVec.eq_of_getLsbD_eq
  intro i hi
  have hb := congrArg (fun b => b.getLsbD (i % 8)) (h (i / 8) (by omega))
  simp only [getLsbD_elem _ _ _ (Nat.mod_lt i (by decide : 8 > 0))] at hb
  rwa [show 8 * (i / 8) + i % 8 = i by omega] at hb

/-! ## The three destination registers (R31, R64, R86) -/

/-- The three destination numbers are pairwise distinct (R31). -/
theorem destReg_injective (t : Fin 32) (r r' : Fin 3) (h : destReg t r = destReg t r') : r = r' := by
  revert t r r'
  decide

/-- The numeric value of a destination number (R64). -/
@[simp] theorem destReg_val (t : Fin 32) (r : Fin 3) : (destReg t r).val = (t.val + r.val) % 32 := rfl

/-- A destination register holds the vector written to it (R86). -/
theorem writeDests_dest {w : Nat} (z : Vector (BitVec w) 32) (t : Fin 32) (v : Vector (BitVec w) 3) (r : Fin 3) :
    (writeDests z t v)[(destReg t r).val] = v[r.val] := by
  have h01 : (destReg t 0).val ≠ (destReg t 1).val := fun h => absurd (destReg_injective t 0 1 (Fin.ext h)) (by decide)
  have h02 : (destReg t 0).val ≠ (destReg t 2).val := fun h => absurd (destReg_injective t 0 2 (Fin.ext h)) (by decide)
  have h12 : (destReg t 1).val ≠ (destReg t 2).val := fun h => absurd (destReg_injective t 1 2 (Fin.ext h)) (by decide)
  match r with
  | 0 => simp only [writeDests]; rw [Vector.getElem_set_ne _ _ h02.symm, Vector.getElem_set_ne _ _ h01.symm, Vector.getElem_set_self]; rfl
  | 1 => simp only [writeDests]; rw [Vector.getElem_set_ne _ _ h12.symm, Vector.getElem_set_self]; rfl
  | 2 => simp only [writeDests]; rw [Vector.getElem_set_self]; rfl

/-- A register that is no destination keeps its value (R86, R91). -/
theorem writeDests_other {w : Nat} (z : Vector (BitVec w) 32) (t : Fin 32) (v : Vector (BitVec w) 3) (i : Fin 32)
    (h : ∀ r : Fin 3, i ≠ destReg t r) : (writeDests z t v)[i.val] = z[i.val] := by
  have hne : ∀ r : Fin 3, (destReg t r).val ≠ i.val := fun r he => h r (Fin.ext he.symm)
  simp only [writeDests]
  rw [Vector.getElem_set_ne _ _ (hne 2), Vector.getElem_set_ne _ _ (hne 1), Vector.getElem_set_ne _ _ (hne 0)]

end Sys2Proof.Machine
end

