-- ==== Sys2Proof/Laws/Memory.lean ====
section
/-! SUPPORT. Laws of the launch memory (R40, R48), of `MemFault` and of the read primitive (R47). -/

namespace Sys2Proof.Machine

/-! ## The launch memory -/

/-- The empty memory is in canonical form. -/
@[simp] theorem Memory.wf_nil : Memory.wf [] = true := rfl

/-- A memory whose addresses rise from `lo` lists nothing below `lo`. -/
theorem Memory.byteAt_below (m : Memory) : ∀ lo a, m.risingFrom lo = true → a < lo → m.byteAt a = none := by
  induction m with
  | nil => intros; rfl
  | cons c m ih =>
    obtain ⟨k, b⟩ := c
    intro lo a h ha
    simp only [Memory.risingFrom, Bool.and_eq_true, decide_eq_true_eq] at h
    have hk : k ≠ a := by omega
    simpa [Memory.byteAt, hk] using ih (k + 1) a h.2 (by omega)

/-- Putting a byte keeps the canonical form (from any lower bound of the address). -/
theorem Memory.risingFrom_put (m : Memory) (a : Nat) (b : Byte) (ha : a < 2 ^ 64) :
    ∀ lo, m.risingFrom lo = true → lo ≤ a → (m.put a b).risingFrom lo = true := by
  induction m with
  | nil => intro lo _ hlo; simp [Memory.put, Memory.risingFrom, hlo, ha, -Nat.reducePow]
  | cons c m ih =>
    obtain ⟨k, d⟩ := c
    intro lo h hlo
    simp only [Memory.risingFrom, Bool.and_eq_true, decide_eq_true_eq] at h
    by_cases h1 : a < k
    · simp [Memory.put, h1, Memory.risingFrom, hlo, ha, h.1.2, h.2, Nat.succ_le_of_lt h1, -Nat.reducePow]
    · by_cases h2 : a = k
      · subst h2
        simp [Memory.put, Memory.risingFrom, hlo, ha, h.2, -Nat.reducePow]
      · have hr := ih (k + 1) h.2 (by omega)
        simp [Memory.put, h1, h2, Memory.risingFrom, h.1.1, h.1.2, hr, -Nat.reducePow]

/-- Putting a byte keeps the canonical form. -/
theorem Memory.wf_put (m : Memory) (a : Nat) (b : Byte) (ha : a < 2 ^ 64) (h : m.wf = true) : (m.put a b).wf = true :=
  Memory.risingFrom_put m a b ha 0 h (Nat.zero_le a)

/-- The byte just put reads back. -/
theorem Memory.byteAt_put_same (m : Memory) (a : Nat) (b : Byte) : (m.put a b).byteAt a = some b := by
  induction m with
  | nil => simp [Memory.put, Memory.byteAt]
  | cons c m ih =>
    obtain ⟨k, d⟩ := c
    by_cases h1 : a < k
    · simp [Memory.put, h1, Memory.byteAt]
    · by_cases h2 : a = k
      · simp [Memory.put, h2, Memory.byteAt]
      · simp [Memory.put, h1, h2, Memory.byteAt, Ne.symm h2, ih]

/-- Putting a byte leaves every other address alone. -/
theorem Memory.byteAt_put_other (m : Memory) (a a' : Nat) (b : Byte) (h : a' ≠ a) :
    (m.put a b).byteAt a' = m.byteAt a' := by
  induction m with
  | nil => simp [Memory.put, Memory.byteAt, Ne.symm h]
  | cons c m ih =>
    obtain ⟨k, d⟩ := c
    by_cases h1 : a < k
    · simp [Memory.put, h1, Memory.byteAt, Ne.symm h]
    · by_cases h2 : a = k
      · subst h2; simp [Memory.put, Memory.byteAt, Ne.symm h]
      · simp [Memory.put, h1, h2, Memory.byteAt, ih]

/-- A memory in canonical form lists only addresses of the 64-bit space. -/
theorem Memory.byteAt_lt (m : Memory) : ∀ lo a b, m.risingFrom lo = true → m.byteAt a = some b → a < 2 ^ 64 := by
  induction m with
  | nil => intro lo a b _ h; simp [Memory.byteAt] at h
  | cons c m ih =>
    obtain ⟨k, d⟩ := c
    intro lo a b h hb
    simp only [Memory.risingFrom, Bool.and_eq_true, decide_eq_true_eq] at h
    by_cases hk : k = a
    · omega
    · exact ih (k + 1) a b h.2 (by simpa [Memory.byteAt, hk] using hb)

/-- Memories that rise from one bound and read alike are equal. -/
theorem Memory.ext_of_risingFrom (m : Memory) : ∀ (m' : Memory) (lo : Nat), m.risingFrom lo = true →
    m'.risingFrom lo = true → (∀ a, m.byteAt a = m'.byteAt a) → m = m' := by
  induction m with
  | nil =>
    intro m' lo _ _ h
    cases m' with
    | nil => rfl
    | cons c m' => simpa [Memory.byteAt] using h c.1
  | cons c m ih =>
    obtain ⟨k, d⟩ := c
    intro m' lo hw hw' h
    cases m' with
    | nil => simpa [Memory.byteAt] using h k
    | cons c' m' =>
      obtain ⟨k', d'⟩ := c'
      simp only [Memory.risingFrom, Bool.and_eq_true, decide_eq_true_eq] at hw hw'
      have hk : k = k' := by
        rcases Nat.lt_trichotomy k k' with hlt | heq | hlt
        · have hr := h k
          rw [Memory.byteAt, if_pos rfl, Memory.byteAt, if_neg (by omega),
            Memory.byteAt_below m' (k' + 1) k hw'.2 (by omega)] at hr
          cases hr
        · exact heq
        · have hr := h k'
          rw [Memory.byteAt, if_neg (by omega), Memory.byteAt_below m (k + 1) k' hw.2 (by omega),
            Memory.byteAt, if_pos rfl] at hr
          cases hr
      subst hk
      have hd : d = d' := by simpa [Memory.byteAt] using h k
      have hm : m = m' := by
        apply ih m' (k + 1) hw.2 hw'.2
        intro a
        by_cases ha : k = a
        · subst ha
          rw [Memory.byteAt_below m (k + 1) k hw.2 (by omega), Memory.byteAt_below m' (k + 1) k hw'.2 (by omega)]
        · simpa [Memory.byteAt, ha] using h a
      rw [hd, hm]

/-- Memories in canonical form that read alike are equal data. -/
theorem Memory.ext_of_wf (m m' : Memory) (h : m.wf = true) (h' : m'.wf = true)
    (hr : ∀ a, m.byteAt a = m'.byteAt a) : m = m' :=
  Memory.ext_of_risingFrom m m' 0 h h' hr

/-! ## The oracle (R48) -/

/-- A listed byte is what a read returns (the simulator oracle of R48). -/
theorem oracle_listed (s : State) (a : Dword) (b : Byte) (h : s.mem.byteAt a.toNat = some b) : oracle s a = b := by
  simp [oracle, h]

/-- An unlisted byte is the free value of this execution (the unconstrained oracle of R48). -/
theorem oracle_unlisted (s : State) (a : Dword) (h : s.mem.byteAt a.toNat = none) :
    oracle s a = Config.oracleByte s.draws a := by
  simp [oracle, h]

/-! ## MemFault (R12) -/

/-- The information of a fault records the address that was accessed (R47, R104). -/
theorem faultIn_addr {vl : Nat} (fs : List FaultRegion) (v : View vl) (a : Dword) (acc : AccDesc) (f : FaultInfo)
    (h : faultIn fs v a acc = some f) : f.addr = a := by
  induction fs with
  | nil => simp [faultIn] at h
  | cons g fs ih =>
    simp only [faultIn] at h
    split at h
    · injection h with h; subst h; rfl
    · exact ih h

/-- With no region, no access faults. -/
@[simp] theorem faultIn_nil {vl : Nat} (v : View vl) (a : Dword) (acc : AccDesc) : faultIn [] v a acc = none := rfl

/-- A region whose condition does not hold of the state is skipped (R12). -/
theorem faultIn_cons_of_not_holds {vl : Nat} (f : FaultRegion) (fs : List FaultRegion) (v : View vl) (a : Dword)
    (acc : AccDesc) (h : StateCond.holds f.cond v = false) : faultIn (f :: fs) v a acc = faultIn fs v a acc := by
  simp [faultIn, regionCovers, h]

/-! ## SveCheck (R9) -/

/-- With no entry, the enable check passes. -/
@[simp] theorem sveOutcomeOf_nil {vl : Nat} (v : View vl) : sveOutcomeOf [] v = .pass := rfl

/-- The first entry of `SveCheck` decides where its condition holds (R9). -/
theorem sveOutcomeOf_cons {vl : Nat} (t : SveTrapRule) (ts : List SveTrapRule) (v : View vl) :
    sveOutcomeOf (t :: ts) v = if StateCond.holds t.cond v then .trap t.k else sveOutcomeOf ts v := rfl

/-! ## The read primitive (R47) -/

/-- A read of an address that does not fault answers its event, whose byte is the oracle's. -/
theorem memRead_ok (s : State) (a : Dword) (acc : AccDesc) (e : Nat) (r : Fin 3) (h : memFault s a acc = none) :
    memRead s a acc e r = .ok { pc := s.pc, e := e, r := r, addr := a, acc := acc, byte := oracle s a } := by
  simp [memRead, h]

/-- A read of an address that faults answers the fault and no event. -/
theorem memRead_error (s : State) (a : Dword) (acc : AccDesc) (e : Nat) (r : Fin 3) (f : FaultInfo)
    (h : memFault s a acc = some f) : memRead s a acc e r = .error f := by
  simp [memRead, h]

end Sys2Proof.Machine
end

