-- ==== Sys2Proof/Laws/Loads.lean ====
section
/-! SUPPORT. Laws of the element loop of LD3B (R84, R85, R90, R106): what it answers, and all it can answer. -/

namespace Sys2Proof.Machine

variable {vl : Nat} (s : State) (mask : BitVec (vl / 8)) (a : Dword)

/-! ## The order of the loops -/

/-- The pairs of `n` elements are the (e, r) with `e < n`. -/
theorem mem_loopOrder (n : Nat) (er : Nat × Fin 3) : er ∈ loopOrder n ↔ er.1 < n := by
  obtain ⟨e, r⟩ := er
  simp only [loopOrder, List.mem_flatMap, List.mem_range]
  constructor
  · rintro ⟨x, hx, hm⟩
    simp at hm
    omega
  · intro h
    refine ⟨e, h, ?_⟩
    fin_cases r <;> simp

/-- No pair comes twice. -/
theorem nodup_loopOrder (n : Nat) : (loopOrder n).Nodup := by
  rw [loopOrder, List.nodup_flatMap]
  refine ⟨fun x _ => by simp, List.Pairwise.imp ?_ (List.nodup_range (n := n))⟩
  intro a b hab
  simp [Function.onFun, Ne.symm hab]

/-- The order of the loops counts up: pair number `j` is `(j / 3, j % 3)`. -/
theorem loopOrder_eq_range (n : Nat) :
    loopOrder n = (List.range (3 * n)).map fun j => (j / 3, (⟨j % 3, by omega⟩ : Fin 3)) := by
  induction n with
  | zero => rfl
  | succ n ih =>
    have h3 : List.range (3 * (n + 1)) = List.range (3 * n) ++ [3 * n, 3 * n + 1, 3 * n + 2] := by
      rw [show 3 * (n + 1) = 3 * n + 1 + 1 + 1 by omega, List.range_succ, List.range_succ, List.range_succ]
      simp
    rw [h3, List.map_append, ← ih, loopOrder, List.range_succ, List.flatMap_append]
    congr 1
    have h1 : (3 * n + 1) / 3 = n := by omega
    have h2 : (3 * n + 2) / 3 = n := by omega
    simp [h1, h2]

/-- Where a pair stands in the order of the loops: after the pairs before it. -/
theorem loopOrder_split (n : Nat) (pre post : List (Nat × Fin 3)) (e : Nat) (r : Fin 3)
    (h : loopOrder n = pre ++ (e, r) :: post) : e < n ∧ pre = pairsBefore e r := by
  have hin : (e, r) ∈ loopOrder n := by rw [h]; simp
  refine ⟨(mem_loopOrder n (e, r)).mp hin, ?_⟩
  rw [loopOrder_eq_range] at h
  have hlen : pre.length < 3 * n := by
    have := congrArg List.length h
    simp at this; omega
  have hget := congrArg (fun l => l[pre.length]?) h
  simp only [List.getElem?_map, List.getElem?_range hlen, Option.map_some, List.getElem?_append_right (Nat.le_refl _),
    Nat.sub_self, List.getElem?_cons_zero, Option.some.injEq, Prod.mk.injEq, Fin.ext_iff] at hget
  have htake := congrArg (List.take pre.length) h
  rw [List.take_left, List.map_take.symm, List.take_range, Nat.min_eq_left (Nat.le_of_lt hlen)] at htake
  rw [← htake, pairsBefore, show 3 * e + r.val = pre.length by omega]

/-- Every pair stands in the order of the loops, after the pairs before it. -/
theorem loopOrder_at (n e : Nat) (r : Fin 3) (he : e < n) :
    ∃ post, loopOrder n = pairsBefore e r ++ (e, r) :: post := by
  obtain ⟨pre, post, h⟩ := List.append_of_mem ((mem_loopOrder n (e, r)).mpr he)
  obtain ⟨-, rfl⟩ := loopOrder_split n pre post e r h
  exact ⟨post, h⟩

/-- There are three pairs for each active element (R90). -/
theorem length_activePairs {w : Nat} (mask : BitVec w) :
    (activePairs mask (loopOrder w)).length = 3 * activeCount mask := by
  have key : ∀ l : List Nat, (activePairs mask (l.flatMap fun e => [(e, (0 : Fin 3)), (e, 1), (e, 2)])).length =
      3 * (l.filter (active mask)).length := by
    intro l
    induction l with
    | nil => rfl
    | cons e l ih =>
      simp only [activePairs, List.flatMap_cons, List.filter_append, List.length_append] at ih ⊢
      rw [ih]
      by_cases h : active mask e = true
      · simp [h]; omega
      · simp [h]
  exact key _

/-! ## One member -/

/-- The byte a completed LD3B puts into element `e` of its `r`-th vector (R90). -/
def memberByte (er : Nat × Fin 3) : Byte :=
  if active mask er.1 then oracle s (memberAddress a er.1 er.2) else 0

/-- The reads in the history after the pairs of a list: those of the active pairs (R45, R84). -/
def historyAfter (ps : List (Nat × Fin 3)) : List ReadEvent := (activePairs mask ps).map (eventAt s a)

/-- The read of a pair, made after the pairs of `pre`, does not fault, or is not made (R85, R105). -/
def ReadsAfter (pre : List (Nat × Fin 3)) (er : Nat × Fin 3) : Prop :=
  active mask er.1 = true →
    memFault (addEvents (historyAfter s mask a pre) s) (memberAddress a er.1 er.2) ld3bAccDesc = none

/-- Every pair of a list reads, each after `pre` and the pairs of the list before it. -/
def AllReadAfter (pre ps : List (Nat × Fin 3)) : Prop :=
  ∀ p₁ er p₂, ps = p₁ ++ er :: p₂ → ReadsAfter s mask a (pre ++ p₁) er

/-- The history grows by a pair's read if the pair is active (R45). -/
theorem historyAfter_concat (pre : List (Nat × Fin 3)) (er : Nat × Fin 3) :
    historyAfter s mask a (pre ++ [er]) =
      historyAfter s mask a pre ++ (if active mask er.1 then [eventAt s a er] else []) := by
  by_cases h : active mask er.1 = true <;> simp [historyAfter, activePairs, h]

/-- Where a read stands in the history after the pairs of a list: after the reads of the pairs before its own. -/
theorem historyAfter_split (ps : List (Nat × Fin 3)) (pre post : List ReadEvent) (ev : ReadEvent)
    (h : historyAfter s mask a ps = pre ++ ev :: post) :
    ∃ p₁ er p₂, ps = p₁ ++ er :: p₂ ∧ active mask er.1 = true ∧ pre = historyAfter s mask a p₁ ∧ ev = eventAt s a er := by
  obtain ⟨l₁, l₂, hl, rfl, h2⟩ := List.map_eq_append_iff.mp h
  obtain ⟨er, l₃, rfl, rfl, rfl⟩ := List.map_eq_cons_iff.mp h2
  obtain ⟨q₁, q₂, rfl, rfl, hq⟩ := List.filter_eq_append_iff.mp hl
  obtain ⟨q₃, q₄, rfl, hno, hact, rfl⟩ := List.filter_eq_cons_iff.mp hq
  refine ⟨q₁ ++ q₃, er, q₄, by simp, hact, ?_, rfl⟩
  have : q₃.filter (fun er => active mask er.1) = [] := List.filter_eq_nil_iff.mpr fun x hx => hno x hx
  simp [historyAfter, activePairs, this]

/-- The pairs of a list all read exactly where no read of their history faults in the state with the reads before it. -/
theorem allReadAfter_iff (ps : List (Nat × Fin 3)) :
    AllReadAfter s mask a [] ps ↔ ∀ pre ev post, historyAfter s mask a ps = pre ++ ev :: post →
      memFault (addEvents pre s) ev.addr ev.acc = none := by
  constructor
  · intro h pre ev post hh
    obtain ⟨p₁, er, p₂, hp, hact, rfl, rfl⟩ := historyAfter_split s mask a ps pre post ev hh
    exact h p₁ er p₂ hp hact
  · rintro h p₁ er p₂ rfl hact
    refine h (historyAfter s mask a p₁) (eventAt s a er) (historyAfter s mask a p₂) ?_
    simp [historyAfter, activePairs, hact]

/-- All pairs of a list read when its first does and then all the others. -/
theorem allReadAfter_cons (pre ps : List (Nat × Fin 3)) (er : Nat × Fin 3) :
    AllReadAfter s mask a pre (er :: ps) ↔ ReadsAfter s mask a pre er ∧ AllReadAfter s mask a (pre ++ [er]) ps := by
  constructor
  · refine fun h => ⟨by simpa using h [] er ps rfl, fun p₁ x p₂ hx => ?_⟩
    simpa using h (er :: p₁) x p₂ (by simp [hx])
  · rintro ⟨h1, h2⟩ p₁ x p₂ hx
    cases p₁ with
    | nil => simp at hx; obtain ⟨rfl, -⟩ := hx; simpa using h1
    | cons y p₁ =>
      simp at hx; obtain ⟨rfl, rfl⟩ := hx
      simpa using h2 p₁ x p₂ rfl

/-- A pair that reads: its element is set to its byte and its read is recorded (R84, R85). -/
theorem loadMember_ok (l : Loaded vl) (pre : List (Nat × Fin 3)) (e : Nat) (r : Fin 3)
    (hl : l.events = historyAfter s mask a pre) (h : ReadsAfter s mask a pre (e, r)) :
    loadMember s mask a l e r =
      .ok { vals := l.vals.set r.val (setElem l.vals[r.val] e (memberByte s mask a (e, r))),
            events := historyAfter s mask a (pre ++ [(e, r)]) } := by
  rw [historyAfter_concat]
  by_cases hm : active mask e = true
  · have hf := h hm
    rw [← hl] at hf
    rw [loadMember, if_pos hm, memRead_ok _ _ _ _ _ hf]
    simp [hm, memberByte, eventAt, hl, oracle]
  · simp [loadMember, hm, memberByte, hl]

/-- A pair whose read faults ends the loop with its information and the reads before it (R104). -/
theorem loadMember_error (l : Loaded vl) (e : Nat) (r : Fin 3) (f : FaultInfo) (hm : active mask e = true)
    (hf : memFault (addEvents l.events s) (memberAddress a e r) ld3bAccDesc = some f) :
    loadMember s mask a l e r = .error { info := f, e := e, r := r, events := l.events } := by
  simp [loadMember, hm, memRead_error _ _ _ _ _ _ hf]

/-! ## The loop -/

/-- The vectors after the pairs of a list, all of which read. -/
def valsAfter : List (Nat × Fin 3) → Vector (BitVec vl) 3 → Vector (BitVec vl) 3
  | [], v => v
  | (e, r) :: ps, v => valsAfter ps (v.set r.val (setElem v[r.val] e (memberByte s mask a (e, r))))

/-- The loop over pairs that all read completes: every pair's element is set and every active pair's read is recorded. -/
theorem loadLoop_ok (ps : List (Nat × Fin 3)) : ∀ (l : Loaded vl) (pre : List (Nat × Fin 3)),
    l.events = historyAfter s mask a pre → AllReadAfter s mask a pre ps →
    loadLoop s mask a ps l =
      .ok { vals := valsAfter s mask a ps l.vals, events := historyAfter s mask a (pre ++ ps) } := by
  induction ps with
  | nil => intro l pre hl _; simp [loadLoop, valsAfter, ← hl]
  | cons p ps ih =>
    obtain ⟨e, r⟩ := p
    intro l pre hl h
    obtain ⟨h1, h2⟩ := (allReadAfter_cons s mask a pre ps (e, r)).mp h
    rw [loadLoop, loadMember_ok s mask a l pre e r hl h1]
    simp only
    rw [ih _ (pre ++ [(e, r)]) rfl h2]
    simp [valsAfter]

/-- The loop over pairs that read followed by one whose read faults: it ends there, with the reads before it. -/
theorem loadLoop_error (ps : List (Nat × Fin 3)) : ∀ (l : Loaded vl) (pre : List (Nat × Fin 3)) (e : Nat) (r : Fin 3)
    (post : List (Nat × Fin 3)) (f : FaultInfo), l.events = historyAfter s mask a pre → AllReadAfter s mask a pre ps →
    active mask e = true →
    memFault (addEvents (historyAfter s mask a (pre ++ ps)) s) (memberAddress a e r) ld3bAccDesc = some f →
    loadLoop s mask a (ps ++ (e, r) :: post) l =
      .error { info := f, e := e, r := r, events := historyAfter s mask a (pre ++ ps) } := by
  induction ps with
  | nil =>
    intro l pre e r post f hl _ hm hf
    rw [List.append_nil, ← hl] at hf
    simp [loadLoop, loadMember_error s mask a l e r f hm hf, ← hl]
  | cons p ps ih =>
    obtain ⟨e', r'⟩ := p
    intro l pre e r post f hl h hm hf
    obtain ⟨h1, h2⟩ := (allReadAfter_cons s mask a pre ps (e', r')).mp h
    rw [List.cons_append, loadLoop, loadMember_ok s mask a l pre e' r' hl h1]
    simp only
    rw [ih _ (pre ++ [(e', r')]) e r post f rfl h2 hm (by simpa using hf)]
    simp

/-- The first pair of a list whose read faults, if not all read. -/
theorem allRead_or_first_fault (ps : List (Nat × Fin 3)) : ∀ pre : List (Nat × Fin 3),
    AllReadAfter s mask a pre ps ∨
      ∃ p₁ e r p₂ f, ps = p₁ ++ (e, r) :: p₂ ∧ AllReadAfter s mask a pre p₁ ∧ active mask e = true ∧
        memFault (addEvents (historyAfter s mask a (pre ++ p₁)) s) (memberAddress a e r) ld3bAccDesc = some f := by
  induction ps with
  | nil => exact fun pre => .inl fun p₁ er p₂ h => by simp at h
  | cons p ps ih =>
    intro pre
    have hp : ReadsAfter s mask a pre p ∨ ∃ f, active mask p.1 = true ∧
        memFault (addEvents (historyAfter s mask a pre) s) (memberAddress a p.1 p.2) ld3bAccDesc = some f := by
      by_cases hm : active mask p.1 = true
      · cases hf : memFault (addEvents (historyAfter s mask a pre) s) (memberAddress a p.1 p.2) ld3bAccDesc with
        | none => exact .inl fun _ => hf
        | some f => exact .inr ⟨f, hm, rfl⟩
      · exact .inl fun h => absurd h hm
    rcases hp with hp | ⟨f, hm, hf⟩
    · rcases ih (pre ++ [p]) with hall | ⟨p₁, e, r, p₂, f, rfl, hp₁, hm, hf⟩
      · exact .inl ((allReadAfter_cons s mask a pre ps p).mpr ⟨hp, hall⟩)
      · exact .inr ⟨p :: p₁, e, r, p₂, f, rfl, (allReadAfter_cons s mask a pre p₁ p).mpr ⟨hp, hp₁⟩, hm, by simpa using hf⟩
    · exact .inr ⟨[], p.1, p.2, ps, f, rfl, fun p₁ er p₂ h => by simp at h, hm, by simpa using hf⟩

/-- The loop asks the state for nothing but the reads of active members: two states whose reads agree after any reads load the
same. -/
theorem loadLoop_congr (s' : State) (ps : List (Nat × Fin 3)) : ∀ l : Loaded vl,
    (∀ evs e r, (e, r) ∈ ps → active mask e = true →
      memRead (addEvents evs s') (memberAddress a e r) ld3bAccDesc e r =
        memRead (addEvents evs s) (memberAddress a e r) ld3bAccDesc e r) →
    loadLoop s' mask a ps l = loadLoop s mask a ps l := by
  induction ps with
  | nil => intro l _; rfl
  | cons p ps ih =>
    obtain ⟨e, r⟩ := p
    intro l h
    have hm : loadMember s' mask a l e r = loadMember s mask a l e r := by
      by_cases hb : active mask e = true
      · simp only [loadMember, hb, h l.events e r (List.mem_cons_self ..) hb]
      · simp [loadMember, hb]
    rw [loadLoop, loadLoop, hm]
    cases loadMember s mask a l e r with
    | ok l' => exact ih l' fun evs e r her => h evs e r (List.mem_cons_of_mem _ her)
    | error ab => rfl

/-- Two states whose reads of the active bytes agree, after any reads, load the same structures. -/
theorem loadStructures_congr (s' : State)
    (h : ∀ evs e r, e < vl / 8 → active mask e = true →
      memRead (addEvents evs s') (memberAddress a e r) ld3bAccDesc e r =
        memRead (addEvents evs s) (memberAddress a e r) ld3bAccDesc e r) :
    loadStructures s' mask a = loadStructures s mask a :=
  loadLoop_congr s mask a s' _ _ fun evs e r her => h evs e r ((mem_loopOrder _ (e, r)).mp her)

/-! ## The elements the loop leaves -/

/-- A pair's element after the loop: its byte if the pair was in the list, its old value else. -/
theorem elem_valsAfter (ps : List (Nat × Fin 3)) : ∀ (v : Vector (BitVec vl) 3) (e : Nat) (r : Fin 3),
    8 * e + 8 ≤ vl →
    elem (valsAfter s mask a ps v)[r.val] e = if (e, r) ∈ ps then memberByte s mask a (e, r) else elem v[r.val] e := by
  induction ps with
  | nil => intro v e r _; simp [valsAfter]
  | cons p ps ih =>
    obtain ⟨e', r'⟩ := p
    intro v e r he
    rw [valsAfter, ih _ e r he]
    by_cases hin : (e, r) ∈ ps
    · rw [if_pos hin, if_pos (List.mem_cons_of_mem _ hin)]
    · rw [if_neg hin]
      by_cases hr : r' = r
      · subst hr
        rw [Vector.getElem_set_self]
        by_cases hee : e = e'
        · subst hee
          rw [elem_setElem_same _ _ _ he, if_pos (List.mem_cons_self ..)]
        · rw [elem_setElem_other _ _ _ _ he hee, if_neg]
          simp [hin, hee]
      · rw [Vector.getElem_set_ne _ _ (fun h => hr (Fin.ext h)), if_neg]
        simp [hin, Ne.symm hr]

/-! ## The whole load -/

/-- What a completed load gives: the bytes of the active pairs, zero else, and the reads of R45. -/
def loadedBytes : Loaded vl :=
  { vals := valsAfter s mask a (loopOrder (vl / 8)) (Loaded.empty vl).vals, events := historyAfter s mask a (loopOrder (vl / 8)) }

/-- The reads of a completed load are those of R45. -/
theorem loadedBytes_events : (loadedBytes s mask a).events = readsOf s mask a := rfl

/-- Element `e` of the `r`-th vector of a completed load is the byte of `(e, r)` (R90). -/
theorem elem_loadedBytes (r : Fin 3) (e : Nat) (he : e < vl / 8) :
    elem (loadedBytes s mask a).vals[r.val] e = memberByte s mask a (e, r) := by
  rw [loadedBytes, elem_valsAfter _ _ _ _ _ _ _ (by omega), if_pos ((mem_loopOrder _ _).mpr he)]

/-- The vectors depend on the state only by the bytes of the members. -/
theorem valsAfter_congr (s' : State) (hb : ∀ er, memberByte s' mask a er = memberByte s mask a er)
    (ps : List (Nat × Fin 3)) : ∀ v, valsAfter s' mask a ps v = valsAfter s mask a ps v := by
  induction ps with
  | nil => intro v; rfl
  | cons p ps ih => intro v; rw [valsAfter, valsAfter, hb, ih]

/-- What a completed load gives depends on the state only by the bytes of the members and `pc` (R45, R90). -/
theorem loadedBytes_congr (s' : State) (hb : ∀ er, memberByte s' mask a er = memberByte s mask a er)
    (he : ∀ er, eventAt s' a er = eventAt s a er) : loadedBytes s' mask a = loadedBytes s mask a := by
  rw [loadedBytes, loadedBytes, valsAfter_congr s mask a s' hb, historyAfter, historyAfter, funext he]

/-- The read of member `r` of structure `e` does not fault when its turn comes, or is not made (R85, R105). -/
def MemberReads (e : Nat) (r : Fin 3) : Prop := ReadsAfter s mask a (pairsBefore e r) (e, r)

/-- The pairs of the loops all read when every member does at its turn. -/
theorem allReadAfter_loopOrder :
    AllReadAfter s mask a [] (loopOrder (vl / 8)) ↔ ∀ e r, e < vl / 8 → MemberReads s mask a e r := by
  constructor
  · intro h e r he
    obtain ⟨post, hp⟩ := loopOrder_at (vl / 8) e r he
    simpa [MemberReads] using h _ (e, r) post hp
  · rintro h p₁ ⟨e, r⟩ p₂ hp
    obtain ⟨he, rfl⟩ := loopOrder_split _ _ _ _ _ hp
    simpa [MemberReads] using h e r he

/-- All members read: the load completes (R90). -/
theorem loadStructures_ok (h : ∀ e r, e < vl / 8 → MemberReads s mask a e r) :
    loadStructures s mask a = .ok (loadedBytes s mask a) := by
  rw [loadStructures, loadLoop_ok s mask a _ _ [] rfl ((allReadAfter_loopOrder s mask a).mpr h)]
  rfl

/-- All the load can do (R84, R85, R104, R106): it completes, and every member read; or it ends at the first active byte, in
loop order, whose read faults, with the reads before it. -/
theorem loadStructures_cases :
    ((∀ e r, e < vl / 8 → MemberReads s mask a e r) ∧ loadStructures s mask a = .ok (loadedBytes s mask a)) ∨
    (∃ ab, loadStructures s mask a = .error ab ∧ ab.e < vl / 8 ∧ active mask ab.e = true ∧
      AllReadAfter s mask a [] (pairsBefore ab.e ab.r) ∧
      ab.events = historyAfter s mask a (pairsBefore ab.e ab.r) ∧
      memFault (addEvents ab.events s) (memberAddress a ab.e ab.r) ld3bAccDesc = some ab.info) := by
  rcases allRead_or_first_fault s mask a (loopOrder (vl / 8)) [] with h | ⟨p₁, e, r, p₂, f, hps, hp₁, hm, hf⟩
  · have h' := (allReadAfter_loopOrder s mask a).mp h
    exact .inl ⟨h', loadStructures_ok s mask a h'⟩
  · obtain ⟨he, rfl⟩ := loopOrder_split _ _ _ _ _ hps
    refine .inr ⟨{ info := f, e := e, r := r, events := historyAfter s mask a (pairsBefore e r) }, ?_, he, hm, hp₁, rfl, hf⟩
    rw [loadStructures, hps, loadLoop_error s mask a _ _ [] e r p₂ f rfl hp₁ hm hf]
    rfl

/-- A completed load gives the bytes of the active pairs, zero else, and the reads of R45. -/
theorem loadStructures_eq_loadedBytes (l : Loaded vl) (h : loadStructures s mask a = .ok l) : l = loadedBytes s mask a := by
  rcases loadStructures_cases s mask a with ⟨-, hl⟩ | ⟨ab, hab, -⟩
  · rw [hl] at h; injection h with h; exact h.symm
  · rw [hab] at h; cases h

/-- What a completed load says (R84, R85, R90): every member read, the reads are those of R45, and the elements are the
bytes. -/
theorem loadStructures_eq_ok (l : Loaded vl) (h : loadStructures s mask a = .ok l) :
    (∀ e r, e < vl / 8 → MemberReads s mask a e r) ∧ l.events = readsOf s mask a ∧
      ∀ (r : Fin 3) (e : Nat), e < vl / 8 → elem l.vals[r.val] e = memberByte s mask a (e, r) := by
  obtain rfl := loadStructures_eq_loadedBytes s mask a l h
  rcases loadStructures_cases s mask a with ⟨h1, -⟩ | ⟨ab, hab, -⟩
  · exact ⟨h1, rfl, elem_loadedBytes s mask a⟩
  · rw [hab] at h; cases h

/-- What an aborted load says (R104, R107): where it ended, why, and with which reads. -/
theorem loadStructures_eq_error (ab : Abort) (h : loadStructures s mask a = .error ab) :
    ab.e < vl / 8 ∧ active mask ab.e = true ∧ AllReadAfter s mask a [] (pairsBefore ab.e ab.r) ∧
      ab.events = historyAfter s mask a (pairsBefore ab.e ab.r) ∧
      memFault (addEvents ab.events s) (memberAddress a ab.e ab.r) ld3bAccDesc = some ab.info := by
  rcases loadStructures_cases s mask a with ⟨-, hl⟩ | ⟨ab', hab, hrest⟩
  · rw [hl] at h; cases h
  · rw [hab] at h; injection h with h; subst h; exact hrest

/-- A load whose members before (e, r) read and whose read of the active member (e, r) then faults ends there (R106). -/
theorem loadStructures_error (e : Nat) (r : Fin 3) (f : FaultInfo) (he : e < vl / 8) (hm : active mask e = true)
    (hpre : AllReadAfter s mask a [] (pairsBefore e r))
    (hf : memFault (addEvents (historyAfter s mask a (pairsBefore e r)) s) (memberAddress a e r) ld3bAccDesc = some f) :
    loadStructures s mask a =
      .error { info := f, e := e, r := r, events := historyAfter s mask a (pairsBefore e r) } := by
  obtain ⟨post, hp⟩ := loopOrder_at (vl / 8) e r he
  rw [loadStructures, hp, loadLoop_error s mask a _ _ [] e r post f rfl hpre hm hf]
  rfl

/-- The pairs before a pair, and where each of them stands. -/
theorem pairsBefore_split (e : Nat) (r : Fin 3) (p₁ p₂ : List (Nat × Fin 3)) (e' : Nat) (r' : Fin 3)
    (h : pairsBefore e r = p₁ ++ (e', r') :: p₂) : p₁ = pairsBefore e' r' ∧ (e' < e ∨ (e' = e ∧ r' < r)) := by
  obtain ⟨post, hp⟩ := loopOrder_at (e + 1) e r (Nat.lt_succ_self e)
  have h1 : loopOrder (e + 1) = p₁ ++ (e', r') :: (p₂ ++ (e, r) :: post) := by rw [hp, h]; simp
  obtain ⟨-, hp₁⟩ := loopOrder_split _ _ _ _ _ h1
  have hmem : (e', r') ∈ pairsBefore e r := by rw [h]; simp
  refine ⟨hp₁, ?_⟩
  simp only [pairsBefore, List.mem_map, List.mem_range, Prod.mk.injEq, Fin.ext_iff] at hmem
  obtain ⟨j, hj, h2, h3⟩ := hmem
  have := r.isLt
  rcases Nat.lt_trichotomy e' e with hlt | heq | hgt
  · exact .inl hlt
  · exact .inr ⟨heq, by rw [Fin.lt_def]; omega⟩
  · omega

/-- The pairs before a pair all read when each of their members does at its turn. -/
theorem allReadAfter_pairsBefore (e : Nat) (r : Fin 3)
    (h : ∀ e' r', (e' < e ∨ (e' = e ∧ r' < r)) → MemberReads s mask a e' r') :
    AllReadAfter s mask a [] (pairsBefore e r) := by
  rintro p₁ ⟨e', r'⟩ p₂ hp
  obtain ⟨rfl, hlt⟩ := pairsBefore_split e r p₁ p₂ e' r' hp
  simpa [MemberReads] using h e' r' hlt

/-- A pair is before another when its number is smaller. -/
theorem mem_pairsBefore (e : Nat) (r : Fin 3) (e' : Nat) (r' : Fin 3) :
    (e', r') ∈ pairsBefore e r ↔ e' < e ∨ (e' = e ∧ r' < r) := by
  simp only [pairsBefore, List.mem_map, List.mem_range, Prod.mk.injEq, Fin.ext_iff, Fin.lt_def]
  have := r.isLt; have := r'.isLt
  constructor
  · rintro ⟨j, hj, h2, h3⟩; omega
  · intro h; exact ⟨3 * e' + r'.val, by omega, by omega, by omega⟩

/-- No pair is twice among the pairs before one. -/
theorem nodup_pairsBefore (e : Nat) (r : Fin 3) : (pairsBefore e r).Nodup := by
  obtain ⟨post, hp⟩ := loopOrder_at (e + 1) e r (Nat.lt_succ_self e)
  have := nodup_loopOrder (e + 1)
  rw [hp] at this
  exact (List.nodup_append.mp this).1

/-- The loop leaves zero vectors alone when no element is active, whatever the vector length (R89). -/
theorem valsAfter_inactive (hm : mask = 0#_) (ps : List (Nat × Fin 3)) (v : Vector (BitVec vl) 3)
    (hv : ∀ r : Fin 3, v[r.val] = 0#_) : valsAfter s mask a ps v = v := by
  induction ps with
  | nil => rfl
  | cons p ps ih =>
    obtain ⟨e, r⟩ := p
    have hb : memberByte s mask a (e, r) = 0#8 := by simp [memberByte, active, hm]
    have hs : setElem v[r.val] e 0#8 = v[r.val] := by rw [hv r, setElem_zero_zero]
    rw [valsAfter, hb, hs, Vector.set_getElem_self, ih]

/-- No element active: the load completes with three zero vectors and no read, whatever memory says (R85, R89). -/
theorem loadStructures_inactive (hm : mask = 0#_) :
    loadStructures s mask a = .ok (Loaded.empty vl) := by
  have hz : ∀ r : Fin 3, (Loaded.empty vl).vals[r.val] = 0#_ := by intro r; fin_cases r <;> rfl
  have hp : activePairs mask (loopOrder (vl / 8)) = [] := by simp [activePairs, active, hm]
  have hr : ∀ e r, e < vl / 8 → MemberReads s mask a e r := fun e r _ h => by simp [active, hm] at h
  rw [loadStructures_ok s mask a hr, loadedBytes, valsAfter_inactive s mask a hm _ _ hz, historyAfter, hp]
  rfl

end Sys2Proof.Machine
end

