-- ==== Sys2Proof/Laws/Exec.lean ====
section
/-! SUPPORT. What LD3B can answer, said once (R80, R100, R106). -/

namespace Sys2Proof.Machine

/-! ## Operands -/

/-- The index register of a field value below 31 (R65). -/
@[simp] theorem indexReg_castSucc (m : Fin 31) : indexReg m.castSucc = some m := by
  simp [indexReg]

/-- The field value 31 names no index register (R65). -/
@[simp] theorem indexReg_last : indexReg 31 = none := rfl

/-- The field values that name an index register. -/
theorem indexReg_some (rm : Fin 32) (m : Fin 31) (h : indexReg rm = some m) : rm = m.castSucc := by
  revert rm m; decide

/-- The field value that names none. -/
theorem indexReg_none (rm : Fin 32) (h : indexReg rm = none) : rm = 31 := by
  revert rm; decide

/-- The start address as one sum modulo 2^64 (R83). -/
theorem startAddress_add (s : State) (rn : BaseReg) (m : Fin 31) :
    startAddress s rn m = baseValue s rn + s.x[m.val] := by
  simp [startAddress, addressAdd, mbytes]

/-- A member's address as a sum modulo 2^64 (R83). -/
theorem memberAddress_add (a : Dword) (e : Nat) (r : Fin 3) : memberAddress a e r = a + BitVec.ofNat 64 (3 * e + r.val) := by
  simp [memberAddress, addressAdd, mbytes]

/-- The machine's member address is the address the statements write out (R83). -/
theorem memberAddress_startAddress (s : State) (rn : BaseReg) (m : Fin 31) (e : Nat) (r : Fin 3) :
    memberAddress (startAddress s rn m) e r = byteAddress s rn m e r := by
  rw [memberAddress_add, startAddress_add]
  cases rn <;> rfl

/-- The machine's read event is the one the statements write out (R28(b), R46). -/
theorem eventAt_startAddress (s : State) (rn : BaseReg) (m : Fin 31) (e : Nat) (r : Fin 3) :
    eventAt s (startAddress s rn m) (e, r) = byteEvent s rn m e r := by
  simp [eventAt, byteEvent, memberAddress_startAddress, ld3bAccDesc]

/-- The byte of a member, written as the statements write it (R90). -/
theorem memberByte_startAddress (s : State) (pg : Fin 8) (rn : BaseReg) (m : Fin 31) (e : Nat) (r : Fin 3) :
    memberByte s (predicate s pg) (startAddress s rn m) (e, r) =
      if s.p[pg.val].getLsbD e then oracle s (byteAddress s rn m e r) else 0 := by
  rw [memberByte, memberAddress_startAddress]; rfl

/-- The reads of a completed LD3B: one for each active element and member (R45). -/
theorem mem_readsOf {w : Nat} (s : State) (mask : BitVec w) (rn : BaseReg) (m : Fin 31) (ev : ReadEvent) :
    ev ∈ readsOf s mask (startAddress s rn m) ↔
      ∃ e r, e < w ∧ active mask e = true ∧ ev = byteEvent s rn m e r := by
  simp only [readsOf, activePairs, List.mem_map, List.mem_filter, mem_loopOrder]
  constructor
  · rintro ⟨⟨e, r⟩, ⟨he, hm⟩, rfl⟩
    exact ⟨e, r, he, hm, eventAt_startAddress s rn m e r⟩
  · rintro ⟨e, r, he, hm, rfl⟩
    exact ⟨(e, r), ⟨he, hm⟩, eventAt_startAddress s rn m e r⟩

/-- The state in which a read is made, as the loop has it (R47, R84). -/
theorem stateAtRead_eq (s : State) (pg : Fin 8) (rn : BaseReg) (m : Fin 31) (e : Nat) (r : Fin 3) :
    addEvents (historyAfter s (predicate s pg) (startAddress s rn m) (pairsBefore e r)) s = stateAtRead s pg rn m e r := by
  simp only [stateAtRead, historyAfter, predicate]
  congr 1
  exact List.map_congr_left fun q _ => eventAt_startAddress s rn m q.1 q.2

/-- A member reads at its turn in the loop exactly where the statements say it is readable, if it is active (R12, R47). -/
theorem memberReads_iff (s : State) (pg : Fin 8) (rn : BaseReg) (m : Fin 31) (e : Nat) (r : Fin 3) :
    MemberReads s (predicate s pg) (startAddress s rn m) e r ↔ (s.p[pg.val].getLsbD e = true → Readable s pg rn m e r) := by
  rw [MemberReads, ReadsAfter, stateAtRead_eq, memberAddress_startAddress]; rfl

/-- The reads in the history after some pairs of the loops. -/
theorem mem_historyAfter {w : Nat} (s : State) (mask : BitVec (w / 8)) (rn : BaseReg) (m : Fin 31)
    (ps : List (Nat × Fin 3)) (ev : ReadEvent) :
    ev ∈ historyAfter (vl := w) s mask (startAddress s rn m) ps ↔
      ∃ e r, (e, r) ∈ ps ∧ active mask e = true ∧ ev = byteEvent s rn m e r := by
  simp only [historyAfter, activePairs, List.mem_map, List.mem_filter]
  constructor
  · rintro ⟨⟨e, r⟩, ⟨he, hm⟩, rfl⟩
    exact ⟨e, r, he, hm, eventAt_startAddress s rn m e r⟩
  · rintro ⟨e, r, he, hm, rfl⟩
    exact ⟨(e, r), ⟨he, hm⟩, eventAt_startAddress s rn m e r⟩

/-- No stack-pointer check with a general register as base (R82). -/
@[simp] theorem spCheckFaults_x {w : Nat} (s : State) (n : Fin 31) (mask : BitVec w) : spCheckFaults s (.x n) mask = false := rfl

/-- With an active element the check of base SP is the alignment test alone (R82). -/
theorem spCheckFaults_sp_active {w : Nat} (s : State) (mask : BitVec w) (h : mask ≠ 0) :
    spCheckFaults s .sp mask = spMisaligned s := by
  simp only [spCheckFaults, spCheckCalled, anyActive, decide_eq_true h, Bool.true_or, Bool.and_true]

/-- With no active element the check of base SP is the alignment test where the free Boolean says so (R11, R82). -/
theorem spCheckFaults_sp_inactive {w : Nat} (s : State) :
    spCheckFaults s .sp (0 : BitVec w) = (spMisaligned s && Config.checkSpNoneActive s.draws) := by
  simp [spCheckFaults, spCheckCalled, anyActive]

/-- The alignment test fails exactly where the statements say the check would fault (R10). -/
theorem spMisaligned_of_wouldFault (s : State) (rn : BaseReg) (h : SpCheckWouldFault s rn) : spMisaligned s = true := by
  obtain ⟨-, ha, hm⟩ := h
  simp only [spMisaligned, ha, Bool.true_and, decide_eq_true_eq]
  exact hm

/-- The check does not fault where it is not armed or `sp` is aligned (R10). -/
theorem spCheckFaults_false {w : Nat} (s : State) (rn : BaseReg) (mask : BitVec w)
    (h : SpCheckPasses s rn) : spCheckFaults s rn mask = false := by
  cases rn with
  | x n => rfl
  | sp => rcases h rfl with h | h <;> simp [spCheckFaults, spMisaligned, h]

/-! ## The instruction -/

/-- A feature is implemented. -/
theorem available_iff (f : Features) : f.available = true ↔ f.sve = true ∨ f.sme = true := by
  simp [Features.available]

/-- Neither feature is implemented. -/
theorem not_available_iff (f : Features) : f.available = false ↔ f.sve = false ∧ f.sme = false := by
  simp [Features.available]

/-- LD3B on operands that are defined, with SVE enabled: what is left is the part after the enable check (R81). -/
theorem execLd3b_enabled (zt : Fin 32) (pg : Fin 8) (rn : BaseReg) (m : Fin 31) (s : State)
    (hf : s.params.features.available = true) (hs : sveCheck s = .pass) :
    execLd3b zt pg rn m.castSucc s = ld3bEnabled zt pg rn m s := by
  simp [execLd3b, hf, hs]

/-- LD3B with SVE enabled and no stack-pointer fault is its transfer (R82). -/
theorem exec_ld3b_transfer (zt : Fin 32) (pg : Fin 8) (rn : BaseReg) (m : Fin 31) (s : State) (he : Enabled s)
    (hc : spCheckFaults s rn (predicate s pg) = false) :
    exec (.ld3b zt pg rn m.castSucc) s = ld3bTransfer zt s (predicate s pg) (startAddress s rn m) := by
  have h := execLd3b_enabled zt pg rn m s ((available_iff _).mpr he.1) he.2
  simpa [exec, ld3bEnabled, hc] using h

/-- LD3B completes as its load does (R80). -/
theorem exec_ld3b_completes (zt : Fin 32) (pg : Fin 8) (rn : BaseReg) (m : Fin 31) (s : State) (l : Loaded s.params.vl)
    (hf : s.params.features.available = true) (hs : sveCheck s = .pass)
    (hc : spCheckFaults s rn (predicate s pg) = false)
    (hl : loadStructures s (predicate s pg) (startAddress s rn m) = .ok l) :
    exec (.ld3b zt pg rn m.castSucc) s = .next (completeLd3b zt s l) := by
  rw [exec_ld3b_transfer zt pg rn m s ⟨(available_iff _).mp hf, hs⟩ hc]
  simp only [ld3bTransfer, hl]

/-- LD3B aborts as its load does (R104, R107). -/
theorem exec_ld3b_aborts (zt : Fin 32) (pg : Fin 8) (rn : BaseReg) (m : Fin 31) (s : State) (ab : Abort)
    (he : Enabled s) (hc : spCheckFaults s rn (predicate s pg) = false)
    (hl : loadStructures s (predicate s pg) (startAddress s rn m) = .error ab) :
    exec (.ld3b zt pg rn m.castSucc) s =
      raiseFault (.dataAbort ab.info ab.e ab.r s.pc) (freeDests zt (addEvents ab.events s)) := by
  rw [exec_ld3b_transfer zt pg rn m s he hc]
  simp only [ld3bTransfer, hl]

/-- LD3B with SVE enabled whose stack-pointer check faults (R82, R103). -/
theorem exec_ld3b_spFault (zt : Fin 32) (pg : Fin 8) (rn : BaseReg) (m : Fin 31) (s : State) (he : Enabled s)
    (hc : spCheckFaults s rn (predicate s pg) = true) :
    exec (.ld3b zt pg rn m.castSucc) s = raiseFault (.spAlignmentFault s.pc s.sp) (freeDests zt s) := by
  have h := execLd3b_enabled zt pg rn m s ((available_iff _).mpr he.1) he.2
  simpa [exec, ld3bEnabled, hc] using h

/-- An element of a destination register after a completed LD3B is the loaded vector's (R86). -/
theorem elem_completeLd3b_dest (zt : Fin 32) (s : State) (l : Loaded s.params.vl) (r : Fin 3) (e : Nat) :
    elem (completeLd3b zt s l).z[(zt.val + r.val) % 32] e = elem l.vals[r.val] e :=
  congrArg (fun v => elem v e) (writeDests_dest s.z zt l.vals r)

/-- A register that is no destination has the number it had (R91). -/
theorem toNat_completeLd3b_other (zt : Fin 32) (s : State) (l : Loaded s.params.vl) (i : Fin 32)
    (h : ∀ r : Fin 3, i.val ≠ (zt.val + r.val) % 32) : (completeLd3b zt s l).z[i.val].toNat = s.z[i.val].toNat :=
  congrArg BitVec.toNat (writeDests_other s.z zt l.vals i fun r he => h r (congrArg Fin.val he))

/-- A register that is no destination keeps its value at a fault (R107). -/
theorem toNat_freeDests_other (zt : Fin 32) (s : State) (i : Fin 32)
    (h : ∀ r : Fin 3, i.val ≠ (zt.val + r.val) % 32) : (freeDests zt s).z[i.val].toNat = s.z[i.val].toNat :=
  congrArg BitVec.toNat (writeDests_other s.z zt _ i fun r he => h r (congrArg Fin.val he))

/-- All that LD3B can do after its checks (R84, R86, R104): it completes; or its first failing read aborts it. -/
theorem ld3bTransfer_cases (zt : Fin 32) (s : State) (mask : BitVec (s.params.vl / 8)) (a : Dword) :
    (∃ l, loadStructures s mask a = .ok l ∧ ld3bTransfer zt s mask a = .next (completeLd3b zt s l)) ∨
    (∃ ab, loadStructures s mask a = .error ab ∧
      ld3bTransfer zt s mask a =
        raiseFault (.dataAbort ab.info ab.e ab.r s.pc) (freeDests zt (addEvents ab.events s))) := by
  cases h : loadStructures s mask a with
  | ok l => exact .inl ⟨l, rfl, by simp only [ld3bTransfer, h]⟩
  | error ab => exact .inr ⟨ab, rfl, by simp only [ld3bTransfer, h]⟩

/-- All that LD3B can do (R100, R106), in the order of its faults' priority. -/
theorem execLd3b_cases (zt : Fin 32) (pg : Fin 8) (rn : BaseReg) (rm : Fin 32) (s : State) :
    ((s.params.features.available = false ∨ rm = 31) ∧
      execLd3b zt pg rn rm s = raiseFault (.undefinedInstruction (encode (.ld3b zt pg rn rm)) s.pc) s) ∨
    ∃ m, rm = Fin.castSucc m ∧ s.params.features.available = true ∧
      ((∃ k, sveCheck s = .trap k ∧ execLd3b zt pg rn rm s = raiseFault (.sveAccessTrap k s.pc) s) ∨
       (sveCheck s = .pass ∧ spCheckFaults s rn (predicate s pg) = true ∧
         execLd3b zt pg rn rm s = raiseFault (.spAlignmentFault s.pc s.sp) (freeDests zt s)) ∨
       (sveCheck s = .pass ∧ spCheckFaults s rn (predicate s pg) = false ∧
         execLd3b zt pg rn rm s = ld3bTransfer zt s (predicate s pg) (startAddress s rn m))) := by
  cases hf : s.params.features.available with
  | false => exact .inl ⟨.inl rfl, by simp [execLd3b, hf]⟩
  | true =>
    cases hm : indexReg rm with
    | none => exact .inl ⟨.inr (indexReg_none rm hm), by simp [execLd3b, hf, hm]⟩
    | some m =>
      refine .inr ⟨m, indexReg_some rm m hm, rfl, ?_⟩
      cases hs : sveCheck s with
      | trap k => exact .inl ⟨k, rfl, by simp [execLd3b, hf, hm, hs]⟩
      | pass =>
        cases hc : spCheckFaults s rn (predicate s pg) with
        | true => exact .inr (.inl ⟨rfl, rfl, by simp [execLd3b, hf, hm, hs, ld3bEnabled, hc]⟩)
        | false => exact .inr (.inr ⟨rfl, rfl, by simp [execLd3b, hf, hm, hs, ld3bEnabled, hc]⟩)

/-- If LD3B answers a next state: the instruction is defined and enabled, the stack-pointer check did not fault, the load
completed, and the state is the one `completeLd3b` describes (R80, R131). -/
theorem execLd3b_next (zt : Fin 32) (pg : Fin 8) (rn : BaseReg) (rm : Fin 32) (s t : State)
    (h : execLd3b zt pg rn rm s = .next t) :
    ∃ m l, rm = Fin.castSucc m ∧ s.params.features.available = true ∧ sveCheck s = .pass ∧
      spCheckFaults s rn (predicate s pg) = false ∧
      loadStructures s (predicate s pg) (startAddress s rn m) = .ok l ∧ t = completeLd3b zt s l := by
  rcases execLd3b_cases zt pg rn rm s with ⟨-, he⟩ | ⟨m, hm, hf, ⟨k, -, he⟩ | ⟨-, -, he⟩ | ⟨hs, hc, he⟩⟩
  · rw [he] at h; exact absurd h (raiseFault_ne_next _ _ _)
  · rw [he] at h; exact absurd h (raiseFault_ne_next _ _ _)
  · rw [he] at h; exact absurd h (raiseFault_ne_next _ _ _)
  · rw [he] at h
    rcases ld3bTransfer_cases zt s (predicate s pg) (startAddress s rn m) with ⟨l, hl, ht⟩ | ⟨ab, -, ht⟩
    · rw [ht] at h; injection h with h; exact ⟨m, l, hm, hf, hs, hc, hl, h.symm⟩
    · rw [ht] at h; exact absurd h (raiseFault_ne_next _ _ _)

/-- If LD3B answers a data abort: the instruction is defined and enabled, the stack-pointer check did not fault, and the load
ended with that abort (R104, R107). -/
theorem execLd3b_dataAbort (zt : Fin 32) (pg : Fin 8) (rn : BaseReg) (rm : Fin 32) (s : State) (f : FaultInfo) (e : Nat)
    (r : Fin 3) (pc : Dword) (left : State) (h : execLd3b zt pg rn rm s = .fault (.dataAbort f e r pc left)) :
    ∃ m ab, rm = Fin.castSucc m ∧ s.params.features.available = true ∧ sveCheck s = .pass ∧
      spCheckFaults s rn (predicate s pg) = false ∧
      loadStructures s (predicate s pg) (startAddress s rn m) = .error ab ∧
      f = ab.info ∧ e = ab.e ∧ r = ab.r ∧ pc = s.pc ∧
      left = { freeDests zt (addEvents ab.events s) with fault := some (.dataAbort ab.info ab.e ab.r s.pc) } := by
  rcases execLd3b_cases zt pg rn rm s with ⟨-, he⟩ | ⟨m, hm, hf, ⟨k, -, he⟩ | ⟨-, -, he⟩ | ⟨hs, hc, he⟩⟩
  · rw [he] at h; simp [raiseFault, faultOf] at h
  · rw [he] at h; simp [raiseFault, faultOf] at h
  · rw [he] at h; simp [raiseFault, faultOf] at h
  · rw [he] at h
    rcases ld3bTransfer_cases zt s (predicate s pg) (startAddress s rn m) with ⟨l, hl, ht⟩ | ⟨ab, hab, ht⟩
    · rw [ht] at h; cases h
    · rw [ht] at h
      simp only [raiseFault, faultOf, Host.Outcome.fault.injEq, Fault.dataAbort.injEq] at h
      obtain ⟨h1, h2, h3, h4, h5⟩ := h
      exact ⟨m, ab, hm, hf, hs, hc, hab, h1.symm, h2.symm, h3.symm, h4.symm, h5.symm⟩

end Sys2Proof.Machine
end

