-- ==== Sys2Proof/Laws/PerInstr.lean ====
section
/-! SUPPORT. Statements made per instruction, one lemma per constructor of `Instr`. -/

namespace Sys2Proof.Laws

/-- The encoded word of every instruction has the fixed bits of its row of the opcode table (R62), well formed or not. -/
def EncodeMatches.Statement (i : Instr) : Prop := encode i &&& ld3bMask = ld3bMatch

theorem EncodeMatches.ld3b (zt : Fin 32) (pg : Fin 8) (rn : BaseReg) (rm : Fin 32) :
    EncodeMatches.Statement (.ld3b zt pg rn rm) := by
  rw [EncodeMatches.Statement, matches_iff, encode_eq_layout, layout_top, layout_mid]
  exact ⟨rfl, rfl⟩

end Sys2Proof.Laws
end

