-- ==== Sys2Proof/Laws/Step.lean ====
section
/-! SUPPORT. What a step can answer, said once (R134), and the fetch of a word (R55). -/

namespace Sys2Proof.Machine

/-! ## The fetch -/

/-- The word of the text at `TextBase + 4k` (R55). -/
theorem wordAt_textAddress (p : Params) (hp : p.programWf = true) (k : Nat) (hk : k < p.text.length) :
    wordAt p (textAddress p k) = p.text[k]? := by
  simp only [Params.programWf, decide_eq_true_eq] at hp
  have hpc : (textAddress p k).toNat = p.textBase.toNat + 4 * k := by
    simp only [textAddress, BitVec.toNat_add, BitVec.toNat_ofNat]; omega
  rw [wordAt, hpc, if_pos (by omega)]
  congr 1; omega

/-- The addresses of a program's words, as numbers. -/
theorem textAddress_toNat (p : Params) (hp : p.programWf = true) (k : Nat) (hk : k < p.text.length) :
    (textAddress p k).toNat = p.textBase.toNat + 4 * k := by
  simp only [Params.programWf, decide_eq_true_eq] at hp
  simp only [textAddress, BitVec.toNat_add, BitVec.toNat_ofNat]; omega

/-- The address after the text is the address of its length. -/
theorem endAddress_eq (p : Params) : endAddress p = textAddress p p.text.length := rfl

/-- The next word's address (R22, R88). -/
theorem nextPc_textAddress (p : Params) (k : Nat) : nextPc (textAddress p k) = textAddress p (k + 1) := by
  simp only [nextPc, textAddress]
  apply BitVec.eq_of_toNat_eq
  have h4 : (4 : Dword).toNat = 4 := rfl
  simp only [BitVec.toNat_add, BitVec.toNat_ofNat, h4]
  omega

/-- A word is fetched only where the run has not ended, and it is the text's word at `pc` (R55, R134). -/
theorem fetch_word (p : Params) (pc : Dword) (w : Word) (h : fetch p pc = .word w) :
    pc ≠ endAddress p ∧ wordAt p pc = some w := by
  unfold fetch at h
  split at h
  · cases h
  · rename_i hne
    refine ⟨hne, ?_⟩
    cases hw : wordAt p pc with
    | none => simp [hw] at h
    | some v => simp only [hw] at h; injection h with h; rw [h]

/-- Where a word is fetched, `pc` is the address of a word of the text (R55). -/
theorem wordAt_some (p : Params) (pc : Dword) (w : Word) (h : wordAt p pc = some w) :
    ∃ k, k < p.text.length ∧ pc = textAddress p k ∧ p.text[k]? = some w := by
  unfold wordAt at h
  split at h
  · rename_i hc
    refine ⟨(pc.toNat - p.textBase.toNat) / 4, ?_, ?_, h⟩
    · obtain ⟨hlt, -⟩ := List.getElem?_eq_some_iff.mp h
      exact hlt
    · apply BitVec.eq_of_toNat_eq
      have := pc.isLt
      simp only [textAddress, BitVec.toNat_add, BitVec.toNat_ofNat]
      omega
  · cases h

/-! ## The step -/

/-- A machine that has stopped neither with a fault nor with a refusal, at a usable vector length, with a word at `pc`: the
step is what that word does (R134). -/
theorem step_word (s : State) (w : Word) (hf : s.fault = none) (hr : s.refused = false) (hv : s.params.vlUsable = true)
    (hw : fetch s.params s.pc = .word w) : step s = runWord w s := by
  simp [step, cycle, hf, hr, runPc, hv, hw]

/-- If a step answers a next state: the machine had not stopped, a word of the text was fetched, it decodes to an
instruction, and the state is that instruction's (R134). -/
theorem step_next (s t : State) (h : step s = .next t) :
    s.fault = none ∧ s.refused = false ∧ s.params.vlUsable = true ∧
      ∃ w i, fetch s.params s.pc = .word w ∧ decode s.params.features w = .instr i ∧ exec i s = .next t := by
  unfold step cycle at h
  cases hf : s.fault with
  | some rec => simp [hf] at h
  | none =>
    cases hr : s.refused with
    | true => simp [hf, hr] at h
    | false =>
      cases hv : s.params.vlUsable with
      | false => simp [hf, hr, runPc, hv] at h
      | true =>
        simp only [hf, hr, runPc, hv] at h
        refine ⟨rfl, rfl, rfl, ?_⟩
        cases hw : fetch s.params s.pc with
        | ended => simp [hw] at h
        | nothing => simp [hw] at h
        | word w =>
          simp only [hw, runWord] at h
          refine ⟨w, ?_⟩
          cases hd : decode s.params.features w with
          | instr i => exact ⟨i, rfl, rfl, by simpa [hd] using h⟩
          | undefined => simp [hd] at h
          | notShown => simp [hd] at h

/-! ## Runs of several steps -/

/-- A run that completes made a first step that completes, of any machine. -/
theorem core_run_succ_inv (M : Host.Core) (k : Nat) (s t : M.State) (h : M.run (k + 1) s = .next t) :
    ∃ u, M.step s = .next u ∧ M.run k u = .next t := by
  rw [Host.Core.run] at h
  cases hs : M.step s with
  | next u => rw [hs] at h; exact ⟨u, rfl, h⟩
  | fault r => rw [hs] at h; cases h
  | refused r => rw [hs] at h; cases h

/-- A run of no step. -/
theorem run_zero (s : State) : Sys2Proof.core.run 0 s = .next s := rfl

/-- A run that completes made a first step that completes. -/
theorem run_succ_inv (k : Nat) (s t : State) (h : Sys2Proof.core.run (k + 1) s = .next t) :
    ∃ u : State, step s = .next u ∧ Sys2Proof.core.run k u = .next t :=
  core_run_succ_inv Sys2Proof.core k s t h

end Sys2Proof.Machine
end

