-- ==== Sys2Proof/Tests/Slice0.lean ====
section
/-! SUPPORT. Tests. Expected values come from `spec/95_test_vectors.md` (its vectors are named in each comment) or by hand
from the rule a comment cites. The `witness_…` theorems show, for each statement of Certificates/Slice0/Obligations.lean
that has hypotheses, a concrete state and operands that meet all of them. -/

namespace Sys2Proof.Tests

open Sys2Proof Sys2Proof.Machine

/-! ## Well-formedness: an ill-formed term for each check, which the check refuses -/

/-- R65: index register 31 does not exist. -/
theorem test_wf_refuses_index_31 : Instr.wf (.ld3b 0 0 (.x 0) 31) = false := by decide

theorem test_wf_accepts_index_30 : Instr.wf (.ld3b 31 7 .sp 30) = true := by decide

/-- U18: a vector length that is no multiple of 8, or zero. -/
theorem test_vlUsable_refuses : { Params.atReset with vl := 12 }.vlUsable = false ∧
    { Params.atReset with vl := 0 }.vlUsable = false := by decide

/-- R7: 64 is no multiple of 128; 2176 is above 2048; 2048 is the largest. -/
theorem test_vlLegal_refuses : { Params.atReset with vl := 64 }.vlLegal = false ∧
    { Params.atReset with vl := 2176 }.vlLegal = false ∧ { Params.atReset with vl := 2048 }.vlLegal = true := by decide

/-- R134: `TextBase` must be a multiple of 4, and the text must not wrap. -/
theorem test_programWf_refuses : { Params.atReset with textBase := 2 }.programWf = false ∧
    { Params.atReset with textBase := 0xFFFFFFFFFFFFFFFC, text := [0, 0] }.programWf = false := by decide

/-- The canonical form of memory: rising addresses of the 64-bit space. -/
theorem test_memory_wf_refuses : Memory.wf [(4, 0), (4, 1)] = false ∧ Memory.wf [(5, 0), (4, 1)] = false ∧
    Memory.wf [(2 ^ 64, 0)] = false ∧ Memory.wf [(4, 1), (5, 0)] = true := by decide

/-! ## Decoding, on words written out from the diagram of R61 -/

/-- EN1 to EN3. -/
theorem test_decode_low_fields :
    decode tableFeatures 0b10100100010_00000_110_000_00000_00000#32 = .instr (.ld3b 0 0 (.x 0) 0) ∧
    decode tableFeatures 0b10100100010_00001_110_000_00000_00000#32 = .instr (.ld3b 0 0 (.x 0) 1) ∧
    decode tableFeatures 0b10100100010_00100_110_011_00010_00001#32 = .instr (.ld3b 1 3 (.x 2) 4) := by decide

/-- EN4 to EN6: register wrap, base SP, base and index the same. -/
theorem test_decode_high_fields :
    decode tableFeatures 0b10100100010_11110_110_111_11111_11111#32 = .instr (.ld3b 31 7 .sp 30) ∧
    decode tableFeatures 0b10100100010_00000_110_101_11111_11110#32 = .instr (.ld3b 30 5 .sp 0) ∧
    decode tableFeatures 0b10100100010_01010_110_001_01010_11101#32 = .instr (.ld3b 29 1 (.x 10) 10) := by decide

/-- EN8 to EN12: one field at its largest value, the others 0. -/
theorem test_decode_one_field :
    decode tableFeatures 0xA440DC00#32 = .instr (.ld3b 0 7 (.x 0) 0) ∧
    decode tableFeatures 0xA45EC000#32 = .instr (.ld3b 0 0 (.x 0) 30) ∧
    decode tableFeatures 0xA440C3C0#32 = .instr (.ld3b 0 0 (.x 30) 0) ∧
    decode tableFeatures 0xA440C3E0#32 = .instr (.ld3b 0 0 .sp 0) ∧
    decode tableFeatures 0xA440C01F#32 = .instr (.ld3b 31 0 (.x 0) 0) := by decide

/-- EN7, EN13, EN14 as bytes at ascending addresses. -/
theorem test_decodeBytes :
    decodeBytes tableFeatures [0xB5#8, 0xD6#8, 0x55#8, 0xA4#8] = .word (.instr (.ld3b 21 5 (.x 21) 21)) [] ∧
    decodeBytes tableFeatures [0x88#8, 0xDC#8, 0x45#8, 0xA4#8] = .word (.instr (.ld3b 8 7 (.x 4) 5)) [] ∧
    decodeBytes tableFeatures [0x03#8, 0xC0#8, 0x42#8, 0xA4#8, 9#8] = .word (.instr (.ld3b 3 0 (.x 0) 2)) [9#8] ∧
    decodeBytes tableFeatures [0x03#8, 0xC0#8, 0x42#8] = .truncated := by decide

/-- U-1 to U-6. -/
theorem test_decode_undefined :
    decode tableFeatures 0xA45FC000#32 = .undefined ∧ decode tableFeatures 0xA45FC8E5#32 = .undefined ∧
    decode tableFeatures 0xA45FDFFF#32 = .undefined ∧
    decode { sve := false, sme := false } 0xA441C000#32 = .undefined ∧
    decode { sve := false, sme := true } 0xA441C000#32 = .instr (.ld3b 0 0 (.x 0) 1) := by decide

/-- 2.3 of the vectors: EN2 with one fixed bit flipped, and three other words, are not shown. -/
theorem test_decode_not_shown :
    (([0x2441C000, 0xE441C000, 0x8441C000, 0xB441C000, 0xAC41C000, 0xA041C000, 0xA641C000, 0xA541C000] : List Word).all
      fun w => decode tableFeatures w == .notShown) = true ∧
    (([0xA4C1C000, 0xA401C000, 0xA461C000, 0xA4414000, 0xA4418000, 0xA441E000, 0x00000000, 0xFFFFFFFF, 0xD503201F]
      : List Word).all fun w => decode tableFeatures w == .notShown) = true := by decide

/-- EN4, EN5, EN13: the words of the instructions. -/
theorem test_encode : encode (.ld3b 31 7 .sp 30) = 0xA45EDFFF#32 ∧ encode (.ld3b 30 5 .sp 0) = 0xA440D7FE#32 ∧
    encode (.ld3b 8 7 (.x 4) 5) = 0xA445DC88#32 := by decide

/-- The four lines the vectors call not encodable: registers not consecutive, P8, XZR and SP as index. -/
theorem test_assemble_refuses :
    assemble { zt1 := 0, zt2 := 2, zt3 := 4, pg := 0, base := .x 0, index := .x 1 } = none ∧
    assemble { zt1 := 0, zt2 := 1, zt3 := 2, pg := 8, base := .x 0, index := .x 1 } = none ∧
    assemble { zt1 := 0, zt2 := 1, zt3 := 2, pg := 0, base := .x 0, index := .xzr } = none ∧
    assemble { zt1 := 0, zt2 := 1, zt3 := 2, pg := 0, base := .x 0, index := .sp } = none := by decide

/-- R72: a list that wraps around is valid. -/
theorem test_assemble_wraps :
    assemble { zt1 := 31, zt2 := 0, zt3 := 1, pg := 7, base := .sp, index := .x 30 } = some (.ld3b 31 7 .sp 30) := by decide

/-- What the host asks: the decoder reads the table row's word. -/
theorem test_decodeTableWord : decodeTableWord 32 0xA444CC41 = some (.ld3b 1 3 (.x 2) 4) := by decide

/-! ## Execution -/

/-- A state with a predicate register set. -/
def setP (g : Fin 8) (v : Nat) (s : State) : State := { s with p := s.p.set g.val (BitVec.ofNat _ v) }

/-- A state with a general register set. -/
def setX (n : Fin 31) (v : Dword) (s : State) : State := { s with x := s.x.set n.val v }

/-- A state with other parameters of the same vector length. -/
def faulting (fs : List FaultRegion) (s : State) : State := withMemFault fs s

/-- A state whose parameter `SveCheck` is `o`. -/
def withSve (o : List SveTrapRule) (s : State) : State := { s with params := { s.params with sveCheck := o } }

/-- A state whose implementation has the features `f`. -/
def withFeatures (f : Features) (s : State) : State := { s with params := { s.params with features := f } }

/-- One translation fault region. -/
def region (lo hi : Dword) : FaultRegion := { cond := .always, lo := lo, hi := hi, acc := none, cause := .translation }

/-- Byte element `e` of `z[i]` after an outcome, 0xEE where it is no next state. -/
def elemAfter (o : Outcome) (i : Fin 32) (e : Nat) : Byte :=
  match o with
  | .next t => elem t.z[i.val] e
  | _ => 0xEE

/-- Vector V6: the start state, with the six bytes it reads. -/
def v6 : State :=
  { setP 1 3 (setX 2 0xFFFFFFFFFFFFFFF0 (setX 3 0xE State.reset)) with
    mem := [(0, 0xA5), (1, 0xA4), (2, 0xA7), (3, 0xA6), (0xFFFFFFFFFFFFFFFE, 0x5B), (0xFFFFFFFFFFFFFFFF, 0x5A)] }

/-- V6: address wrap and register wrap; the word is decoded and stepped, element 0 and 1 of `z[31]`, `z[0]`, `z[1]`. -/
theorem test_step_v6 :
    let o := step (v6.withFetchWord 32 0xA443C45F)
    [elemAfter o 31 0, elemAfter o 31 1, elemAfter o 0 0, elemAfter o 0 1, elemAfter o 1 0, elemAfter o 1 1, elemAfter o 1 2]
      = [0x5B, 0xA4, 0x5A, 0xA7, 0xA5, 0xA6, 0x00] := by decide

/-- FV9: the data abort on the middle member, with one read before it. -/
def fv9 : State := faulting [region 0x1011 0x1011] (setP 0 1 (setX 0 0x1000 (setX 1 0x10 State.reset)))

/-- What a data abort reports: the faulting address, the element and the member, and the addresses read before it. -/
def abortSummary : Outcome → Dword × Nat × Nat × List Dword
  | .fault (.dataAbort f e r _ left) => (f.addr, e, r.val, left.events.map ReadEvent.addr)
  | _ => (0, 0, 0, [])

/-- FV9: `DataAbort(address 0x1011, e 0, r 1)`, one read in the history (0x1010). -/
theorem test_exec_fv9 : abortSummary (exec (.ld3b 0 0 (.x 0) 1) fv9) = (0x1011, 0, 1, [0x1010]) := by decide

/-- A state in which `SveCheck` traps once three reads have been made, and only then (R9). -/
def trapAfterReads : State := withSve [{ cond := .readsAtLeast 3, k := 1 }] (setP 0 1 State.reset)

/-- R9, R81: the same word completes, and traps where it comes again, since the answer of the check changed with the state. -/
theorem test_sveCheck_changes :
    (match exec (.ld3b 0 0 (.x 0) 1) trapAfterReads with
      | .next t => match exec (.ld3b 3 0 (.x 0) 1) t with
        | .fault (.sveAccessTrap k _ _) => k
        | _ => 0
      | _ => 0) = 1 := by decide

/-- R12, R47: byte 0x1011 faults only once 0x1010 has been read; LD3B reads 0x1010 first and so aborts at member 1. -/
theorem test_memFault_after_read :
    let s := faulting [{ region 0x1011 0x1011 with cond := .hasRead 0x1010 0x1010 }]
      (setP 0 1 (setX 0 0x1000 (setX 1 0x10 State.reset)))
    memFault s 0x1011 ld3bAccDesc = none ∧
      abortSummary (exec (.ld3b 0 0 (.x 0) 1) s) = (0x1011, 0, 1, [0x1010]) := by decide

/-! ## Witnesses of the statements' hypotheses -/

/-- Whether an outcome is a next state. -/
def completes : Outcome → Bool
  | .next _ => true
  | _ => false

/-- An outcome that is a next state is one. -/
theorem next_of_completes (o : Outcome) (h : completes o = true) : ∃ t, o = .next t := by
  cases o with
  | next t => exact ⟨t, rfl⟩
  | fault f => cases h
  | refused r => cases h

/-- DecodeOfEncodeIsTheInstruction; with SP and X30 as bases. -/
theorem witness_DecodeOfEncode : tableFeatures.sve = true ∧ Instr.wf (.ld3b 31 7 .sp 30) = true ∧
    Instr.wf (.ld3b 0 0 (.x 30) 0) = true := by decide

/-- EncodeOfDecodedIsTheWord and OperandsAreTheFieldsOfTheWord; both clauses on the base, at field values 31 and 30. -/
theorem witness_OperandsAreTheFields :
    decode tableFeatures 0xA440C3E0#32 = .instr (.ld3b 0 0 .sp 0) ∧ (0xA440C3E0#32).toNat / 2 ^ 5 % 2 ^ 5 = 31 ∧
    decode tableFeatures 0xA440C3C0#32 = .instr (.ld3b 0 0 (.x 30) 0) ∧ (0xA440C3C0#32).toNat / 2 ^ 5 % 2 ^ 5 = 30 := by
  decide

/-- A state at whose `pc` the word `w` stands, and which runs it. -/
def at_ (w : Nat) : State := State.reset.withFetchWord 32 w

/-- IndexThirtyOneIsUndefined; an assembler line that is encodable is in `test_assemble_wraps`. -/
theorem witness_IndexThirtyOne : 0xA45FC8E5#32 &&& 0xFFFFE000#32 = 0xA45FC000#32 ∧ RunsWord (at_ 0xA45FC8E5) 0xA45FC8E5 := by
  unfold RunsWord; decide

/-- UndefinedInstructionChangesNoState: each of its two grounds. -/
theorem witness_UndefinedInstruction :
    (RunsWord (at_ 0xA45FC8E5) 0xA45FC8E5 ∧ 0xA45FC8E5#32 &&& 0xFFE0E000#32 = 0xA440C000#32 ∧
      0xA45FC8E5#32 &&& 0x001F0000#32 = 0x001F0000#32) ∧
    (RunsWord (withFeatures { sve := false, sme := false } (at_ 0xA441C000)) 0xA441C000 ∧
      0xA441C000#32 &&& 0xFFE0E000#32 = 0xA440C000#32) := by
  unfold RunsWord; decide

/-- CountOfDefinedAndUndefinedWords: one feature, either one. -/
theorem witness_Count : ({ sve := true, sme := false } : Features).available = true ∧
    ({ sve := false, sme := true } : Features).available = true := by decide

/-- V1's operands with elements 0 and 15 active, no fault region. -/
def v1 : State := setP 0 0x8001 (setX 0 0x1000 (setX 1 0x10 State.reset))

/-- Ld3bCompletesWithTheDeinterleavedBytes: a general base. -/
theorem witness_Completes : Enabled v1 ∧ SpCheckPasses v1 (.x 0) ∧ v1.p[0].getLsbD 15 = true ∧
    ∀ (e : Nat) (r : Fin 3), e < v1.params.vl / 8 → v1.p[0].getLsbD e = true →
      Readable v1 0 (.x 0) 1 e r :=
  ⟨⟨by decide, rfl⟩, fun h => (by cases h), by decide, fun _ _ _ _ => rfl⟩

/-- FV3: base SP, aligned. -/
def fv3 : State := { setP 0 1 (setX 0 1 State.reset) with sp := 0x7FF0 }

/-- FV4: base SP, misaligned, check not armed. -/
def fv4 : State :=
  { setP 0 1 (setX 0 8 State.reset) with sp := 0x7FF8, params := { Params.atReset with spAlignCheck := .not .always } }

/-- Ld3bCompletesWithTheDeinterleavedBytes: base SP, by each way the check passes. -/
theorem witness_Completes_sp : (Enabled fv3 ∧ SpCheckPasses fv3 .sp) ∧ (Enabled fv4 ∧ SpCheckPasses fv4 .sp) :=
  ⟨⟨⟨by decide, rfl⟩, fun _ => .inr (by decide)⟩, ⟨⟨by decide, rfl⟩, fun _ => .inl rfl⟩⟩

/-- FV8: the fault regions hold only bytes of inactive elements. -/
theorem witness_Completes_holes :
    let s := faulting [region 0x1016 0xFFFFFFFFFFFFFFFF, region 0x1010 0x1012] (setP 0 2 (setX 0 0x1000 (setX 1 0x10 State.reset)))
    Enabled s ∧ (∀ e, e < s.params.vl / 8 → s.p[0].getLsbD e = true → ∀ r : Fin 3, Readable s 0 (.x 0) 1 e r) :=
  ⟨⟨by decide, rfl⟩, by unfold Readable; decide⟩

/-- Ld3bLoadsTheLaunchMemory: V6, all six active bytes listed. -/
theorem witness_LaunchMemory :
    (∀ e, e < v6.params.vl / 8 → v6.p[1].getLsbD e = true → ∀ r : Fin 3,
      v6.mem.byteAt (byteAddress v6 (.x 2) 3 e r).toNat =
        some (BitVec.setWidth 8 (byteAddress v6 (.x 2) 3 e r) ^^^ 0xA5#8)) ∧
    completes (exec (.ld3b 31 1 (.x 2) 3) v6) = true := by decide

/-- Ld3bWithNoActiveElementZeroes: V4, with memory faulting everywhere; and base SP. -/
theorem witness_NoActiveElement :
    let s := faulting [region 0 0xFFFFFFFFFFFFFFFF] State.reset
    Enabled s ∧ SpCheckPasses s (.x 0) ∧ SpCheckPasses s .sp ∧ s.p[0] = 0 :=
  ⟨⟨by decide, rfl⟩, fun h => (by cases h), fun _ => .inr (by decide), rfl⟩

/-- InactiveElementsAreZeroedAndSkipped, Ld3bFrame, EveryReadCarriesTheDescriptor, DitHasNoEffectOnValues: V6 completes, with
element 1 active and element 2 inactive. -/
theorem witness_Frame : completes (exec (.ld3b 31 1 (.x 2) 3) v6) = true ∧ v6.p[1].getLsbD 1 = true ∧
    v6.p[1].getLsbD 2 = false := by decide

/-- ReadsOfOneLd3bAreDistinct: a legal length, and every element active. -/
theorem witness_ReadsDistinct :
    let s := setP 0 0xFFFF State.reset
    s.params.vlLegal = true ∧ completes (exec (.ld3b 0 0 (.x 0) 1) s) = true ∧ s.p[0] = BitVec.allOnes _ :=
  ⟨by decide, by decide, rfl⟩

/-- OnlyActiveBytesOfMemoryMatter: another memory that differs from V6's only at address 4, which is not read. -/
theorem witness_OtherMemory :
    (∀ e, e < v6.params.vl / 8 → v6.p[1].getLsbD e = true → ∀ r : Fin 3,
      (v6.mem.put 4 9).byteAt (byteAddress v6 (.x 2) 3 e r).toNat = v6.mem.byteAt (byteAddress v6 (.x 2) 3 e r).toNat) ∧
    v6.mem.put 4 9 ≠ v6.mem ∧ completes (exec (.ld3b 31 1 (.x 2) 3) v6) = true := by decide

/-- OnlyActiveBytesOfMemoryMatter and InactiveElementsAreZeroedAndSkipped: V6's parameters answer the same whatever the memory
and the vector registers hold, and V6 completes with other vector registers. -/
theorem witness_HelpersAgree : HelpersAgree v6 { v6 with mem := v6.mem.put 4 9 } ∧
    HelpersAgree v6 { v6 with z := Vector.replicate 32 1#128 } ∧
    completes (exec (.ld3b 31 1 (.x 2) 3) { v6 with z := Vector.replicate 32 1#128 }) = true :=
  ⟨⟨rfl, rfl, fun _ _ _ => rfl⟩, ⟨rfl, rfl, fun _ _ _ => rfl⟩, by decide⟩

/-- InactiveElementsNeverFault, first clause: V6 completes, and regions that cover all but the bytes it reads. -/
theorem witness_OtherFaults :
    (match exec (.ld3b 31 1 (.x 2) 3) v6 with
      | .next t => t.events.all fun ev => (faultIn [region 4 0xFFFFFFFFFFFFFFFD] v6.view ev.addr ev.acc).isNone
      | _ => false) = true := by decide

/-- InactiveElementsNeverFault, its other clauses, and those of EveryReadCarriesTheDescriptor and
InactiveElementsAreZeroedAndSkipped on data aborts: FV9 aborts; with an all-false predicate U-1 still raises a fault. -/
theorem witness_Abort_and_NoActive :
    (match exec (.ld3b 0 0 (.x 0) 1) fv9 with
      | .fault (.dataAbort _ _ _ _ _) => true
      | _ => false) = true ∧
    State.reset.p[0] = 0 ∧ ∃ f, exec (.ld3b 0 0 (.x 0) 31) State.reset = .fault f := ⟨by decide, rfl, _, rfl⟩

/-- ExecOfUndefinedOperandsRaises: its second ground (the first is `rm = 31` alone). -/
theorem witness_NoFeature :
    (withFeatures { sve := false, sme := false } State.reset).params.features.sve = false ∧
    (withFeatures { sve := false, sme := false } State.reset).params.features.sme = false := by decide

/-- DisabledSveTraps: FV1. -/
theorem witness_SveTrap : (withSve [{ cond := .always, k := 3 }] State.reset).params.features.sve = true ∧
    sveCheck (withSve [{ cond := .always, k := 3 }] State.reset) = .trap 3 := by decide

/-- FV2: base SP, misaligned, armed, element 0 active. -/
def fv2 : State := { setP 0 1 (setX 0 8 State.reset) with sp := 0x7FF8 }

/-- MisalignedStackPointerFaults: FV2. -/
theorem witness_SpFault : Enabled fv2 ∧ SpCheckWouldFault fv2 .sp ∧ fv2.p[0] ≠ 0 :=
  ⟨⟨by decide, rfl⟩, ⟨rfl, rfl, by decide⟩, fun h => absurd (congrArg BitVec.toNat h) (by decide)⟩

/-- FV5: as FV2, with no element active. -/
def fv5 : State := { State.reset with sp := 0x7FF8 }

/-- MisalignedStackPointerWithNoActiveElement: FV5. -/
theorem witness_SpDraw : Enabled fv5 ∧ SpCheckWouldFault fv5 .sp ∧ fv5.p[0] = 0 :=
  ⟨⟨by decide, rfl⟩, ⟨rfl, rfl, by decide⟩, rfl⟩

/-- FailingActiveByteAborts and FirstFailingByteIsReported: FV9, whose first failing byte is element 0, member 1. -/
theorem witness_Aborts : Enabled fv9 ∧ SpCheckPasses fv9 (.x 0) ∧ 0 < fv9.params.vl / 8 ∧ fv9.p[0].getLsbD 0 = true ∧
    memFault (stateAtRead fv9 0 (.x 0) 1 0 1) (byteAddress fv9 (.x 0) 1 0 1) ld3bAccDesc =
      some { addr := 0x1011, cause := .translation } ∧
    ¬Readable fv9 0 (.x 0) 1 0 1 ∧ fv9.params.vlLegal = true :=
  ⟨⟨by decide, rfl⟩, fun h => (by cases h), by decide, by decide, by decide, by unfold Readable; decide, by decide⟩

/-- FirstFailingByteIsReported: in FV9 nothing before element 0, member 1 fails. -/
theorem witness_FirstAbort (e' : Nat) (r' : Fin 3) (h : e' < 0 ∨ (e' = 0 ∧ r' < 1)) : Readable fv9 0 (.x 0) 1 e' r' := by
  rcases h with h | ⟨rfl, h⟩
  · omega
  · unfold Readable; revert r'; decide

/-- FaultLeavesAllButTheDestinations: FV9 and U-1 raise. -/
theorem witness_Fault : (∃ f, exec (.ld3b 0 0 (.x 0) 31) State.reset = .fault f) ∧
    (match exec (.ld3b 0 0 (.x 0) 1) fv9 with
      | .fault _ => true
      | _ => false) = true := ⟨⟨_, rfl⟩, by decide⟩

/-- ReadFaultsOrAnswersTheOraclesByte: a fault, and none with a listed byte. -/
theorem witness_Read : memFault fv9 0x1011 ld3bAccDesc = some { addr := 0x1011, cause := .translation } ∧
    memFault v6 0xFFFFFFFFFFFFFFFF ld3bAccDesc = none ∧ v6.mem.byteAt (0xFFFFFFFFFFFFFFFF : Dword).toNat = some 0x5A := by decide

/-- ConditionsTellStatesApart: two states that differ in `pc`. -/
theorem witness_Conditions : (State.view State.reset).pc ≠ (State.view { State.reset with pc := 4 }).pc := by decide

/-- StartAddressIsAModularSum: an index of all ones. -/
theorem witness_MinusOne : (setX 30 0xFFFFFFFFFFFFFFFF State.reset).x[30] = BitVec.allOnes 64 := by decide

/-- A two-word program, P1 of the vectors, at its launch. -/
def p1 : State :=
  { State.reset with params := { Params.atReset with textBase := 0x400, text := [0xA441C000, 0xA442C003] }, pc := 0x400 }

/-- StepRunsTheDecodedInstruction: both words of P1, the last one included. -/
theorem witness_StepRuns : p1.fault = none ∧ p1.refused = false ∧ p1.params.vlUsable = true ∧ p1.params.programWf = true ∧
    4 * p1.params.text.length < 2 ^ 64 ∧ p1.params.text[0]? = some 0xA441C000 ∧ p1.pc = textAddress p1.params 0 ∧
    p1.params.text[1]? = some 0xA442C003 ∧ { p1 with pc := 0x404 }.pc = textAddress p1.params 1 ∧
    decode p1.params.features 0xA441C000 = .instr (.ld3b 0 0 (.x 0) 1) ∧
    decode p1.params.features 0xA442C003 = .instr (.ld3b 3 0 (.x 0) 2) := by decide

/-- WordNotShownIsRefused: EN2 with bit 13 flipped. -/
theorem witness_NotShown : RunsWord (at_ 0xA441E000) 0xA441E000 ∧ 0xA441E000#32 &&& 0xFFE0E000#32 ≠ 0xA440C000#32 := by
  unfold RunsWord; decide

/-- WhereThereIsNoStep, its first three clauses: a fault record, the refused mark, a vector length of 12. -/
theorem witness_NoStep_marks :
    ({ State.reset with fault := some (.sveAccessTrap 0 0) } : State).fault = some (.sveAccessTrap 0 0) ∧
    ({ State.reset with refused := true } : State).fault = none ∧
    (let s : State := { State.reset with params := { Params.atReset with vl := 12 }, z := Vector.replicate 32 0,
                                         p := Vector.replicate 8 0 }
     s.fault = none ∧ s.refused = false ∧ ¬(s.params.vl % 8 = 0 ∧ 0 < s.params.vl)) := by decide

/-- WhereThereIsNoStep, its last two clauses: the address after P1's text; the address before it, and the one after the end. -/
theorem witness_NoStep_addresses :
    ({ p1 with pc := 0x408 } : State).pc = textAddress p1.params p1.params.text.length ∧
    (∀ k, k ≤ p1.params.text.length → (0x3FC : Dword) ≠ textAddress p1.params k) ∧
    (∀ k, k ≤ p1.params.text.length → (0x40C : Dword) ≠ textAddress p1.params k) := by decide

/-- StepKeepsParametersAndMemory and StepKeepsTheInvariant: P1 at its launch meets the invariant, and its step completes. -/
theorem witness_Invariant : Inv p1 ∧ completes (step p1) = true :=
  ⟨⟨by decide, by decide, by decide, rfl, rfl, ⟨0, by decide⟩, by intro ev h; cases h⟩, by decide⟩

/-- InvariantHoldsAtResetAndLaunch and EveryRunEndsWithinItsText: P1 is a launch state, and runs of one and of two steps
(its whole text) complete. -/
theorem witness_Launch : Launch p1 ∧ p1.params.vlUsable = true ∧ p1.mem.wf = true ∧
    completes (Sys2Proof.core.run 1 p1) = true ∧ completes (Sys2Proof.core.run 2 p1) = true :=
  ⟨⟨by decide, rfl, rfl, rfl, rfl⟩, by decide, by decide, by decide, by decide⟩

/-- PlacedWordIsTheNextRun. -/
theorem witness_Placed : State.reset.params.vlUsable = true ∧
    decode State.reset.params.features 0xA441C000#32 = .instr (.ld3b 0 0 (.x 0) 1) ∧
    completes (step (State.reset.withFetchWord 32 0xA441C000)) = true := by decide

end Sys2Proof.Tests
end

section
/-! PROOFS for `00_scope.md`: what the parameters' conditions can see of a state (R9, R10, R12), the enable check that traps
(R9, R81), and what no step changes (R7, R44, R55). -/

namespace Sys2Proof.Machine

/-! ## Conditions on the state (R9, R10, R12; log 1) -/

/-- A range of one value holds that value alone. -/
@[simp] theorem inRange_self_iff (a b : Dword) : inRange a a b = true ↔ b = a := by
  simp only [inRange, decide_eq_true_eq]
  constructor
  · rintro ⟨hle, hge⟩
    exact BitVec.eq_of_toNat_eq (Nat.le_antisymm hge hle)
  · rintro rfl
    exact ⟨Nat.le_refl _, Nat.le_refl _⟩

/-- Every condition answers the same of two views: no parameter can tell them apart. -/
def SameAnswers {vl : Nat} (v w : View vl) : Prop := ∀ c : StateCond, StateCond.holds c v = StateCond.holds c w

/-- Conditions are closed under negation, so views that no condition separates in the one direction get the same answers. -/
theorem sameAnswers_of_not_separated {vl : Nat} {v w : View vl}
    (h : ¬∃ c : StateCond, StateCond.holds c v = true ∧ StateCond.holds c w = false) : SameAnswers v w := by
  intro c
  cases hv : StateCond.holds c v <;> cases hw : StateCond.holds c w
  case false.false | true.true => rfl
  case true.false => exact absurd ⟨c, hv, hw⟩ h
  case false.true => exact absurd ⟨.not c, by simp [StateCond.holds, hv], by simp [StateCond.holds, hw]⟩ h

namespace SameAnswers

variable {vl : Nat} {v w : View vl}

/-- Where a condition asks of both views whether a 64-bit value is in the range that holds the first view's value `a` alone,
the second view's value `b` is `a`. -/
theorem eq_of_single_range (h : SameAnswers v w) (c : StateCond) {a b : Dword}
    (hv : StateCond.holds c v = inRange a a a) (hw : StateCond.holds c w = inRange a a b) : a = b := by
  have hb : inRange a a b = true := by
    rw [← hw, ← h c, hv]
    exact (inRange_self_iff a a).mpr rfl
  exact ((inRange_self_iff a b).mp hb).symm

theorem x_eq (h : SameAnswers v w) : v.x = w.x :=
  Vector.ext fun i hi => h.eq_of_single_range (.xIn ⟨i, hi⟩ v.x[i] v.x[i]) rfl rfl

theorem sp_eq (h : SameAnswers v w) : v.sp = w.sp := h.eq_of_single_range (.spIn v.sp v.sp) rfl rfl

theorem pc_eq (h : SameAnswers v w) : v.pc = w.pc := h.eq_of_single_range (.pcIn v.pc v.pc) rfl rfl

/-- A vector register is fixed bit by bit. -/
theorem z_eq (h : SameAnswers v w) : v.z = w.z :=
  Vector.ext fun i hi => BitVec.eq_of_getLsbD_eq fun b _ => h (.zBit ⟨i, hi⟩ b)

/-- A predicate register is fixed bit by bit. -/
theorem p_eq (h : SameAnswers v w) : v.p = w.p :=
  Vector.ext fun i hi => BitVec.eq_of_getLsbD_eq fun b _ => h (.pBit ⟨i, hi⟩ b)

/-- What the memory lists at an address is fixed byte value by byte value; an unlisted address is one where every test of a
byte fails. -/
theorem byteAt_eq (h : SameAnswers v w) (a : Dword) : v.mem.byteAt a.toNat = w.mem.byteAt a.toNat :=
  Option.ext fun b => by simpa [StateCond.holds] using h (.memIs a b)

/-- Two numbers of reads with the same lower bounds are equal. -/
theorem length_events_eq (h : SameAnswers v w) : v.events.length = w.events.length :=
  eq_of_forall_le_iff fun n => by simpa [StateCond.holds] using h (.readsAtLeast n)

end SameAnswers

/-- Settles O31: two views that no condition separates get the same answers, and these fix every register, every listed byte
and the number of reads. -/
theorem conditionsTellStatesApart : Obligations.ConditionsTellStatesApart := by
  intro vl v w hdiff
  by_contra hno
  have h : SameAnswers v w := sameAnswers_of_not_separated hno
  rcases hdiff with hx | hsp | hpc | hz | hp | ⟨a, ha⟩ | hlen
  · exact hx h.x_eq
  · exact hsp h.sp_eq
  · exact hpc h.pc_eq
  · exact hz h.z_eq
  · exact hp h.p_eq
  · exact ha (h.byteAt_eq a)
  · exact hlen h.length_events_eq

/-! ## The enable check (R9, R81) -/

/-- The dispatch of LD3B to its meaning. -/
theorem exec_ld3b (zt : Fin 32) (pg : Fin 8) (rn : BaseReg) (rm : Fin 32) (s : State) :
    exec (.ld3b zt pg rn rm) s = execLd3b zt pg rn rm s := rfl

/-- LD3B on operands that are defined, where the enable check traps: the trap is raised of the state as it is, before
predicate, registers and memory are looked at (R9, R81). -/
theorem execLd3b_sveTrap (zt : Fin 32) (pg : Fin 8) (rn : BaseReg) (m : Fin 31) (s : State) (k : Nat)
    (hf : s.params.features.available = true) (hs : sveCheck s = .trap k) :
    execLd3b zt pg rn m.castSucc s = raiseFault (.sveAccessTrap k s.pc) s := by
  simp [execLd3b, hf, hs]

/-- Settles O22: `execLd3b_sveTrap`, with what a raise answers. -/
theorem disabledSveTraps : Obligations.DisabledSveTraps := by
  intro zt pg rn m s k hf hs
  rw [exec_ld3b, execLd3b_sveTrap zt pg rn m s k ((available_iff _).mpr hf) hs, raiseFault_eq]
  rfl

/-! ## What no step changes (R7, R44, R55) -/

/-- An instruction that completes leaves the parameters and the memory as they were (R7, R44): the state that a completed
LD3B leaves has new vector registers, reads and `pc` only. -/
theorem exec_next_params_mem (i : Instr) (s t : State) (h : exec i s = .next t) :
    t.params = s.params ∧ t.mem = s.mem := by
  cases i with
  | ld3b zt pg rn rm =>
    obtain ⟨m, l, -, -, -, -, -, rfl⟩ := execLd3b_next zt pg rn rm s t h
    exact ⟨completeLd3b_params zt s l, completeLd3b_mem zt s l⟩

/-- Settles O37: a step that answers a next state is an instruction that completes. -/
theorem stepKeepsParametersAndMemory : Obligations.StepKeepsParametersAndMemory := by
  intro s t h
  obtain ⟨-, -, -, w, i, -, -, hexec⟩ := step_next s t h
  exact exec_next_params_mem i s t hexec

end Sys2Proof.Machine
end

section
/-! PROOFS for `10_state.md`: the three destination numbers (R31), `PSTATE.DIT` (R25), and the invariant of a run (R22,
R28). -/

namespace Sys2Proof.Machine

/-! ## The destination numbers (R31, R64) -/

/-- Settles O33: distinct members have distinct destinations since `destReg t` is injective; the two wraps are evaluated. -/
theorem destinationsAreDistinctAndWrap : Obligations.DestinationsAreDistinctAndWrap :=
  ⟨fun t r r' hne heq => hne (destReg_injective t r r' heq), by decide, by decide⟩

/-! ## `PSTATE.DIT` (R25, R133)

The view that the parameters answer from leaves `dit` out (`view_dit`), and so does the oracle. -/

theorem sveCheck_dit (s : State) (b : Bool) : sveCheck { s with dit := b } = sveCheck s :=
  congrArg (sveOutcomeOf s.params.sveCheck) (view_dit s b)

theorem spAlignCheck_dit (s : State) (b : Bool) : spAlignCheck { s with dit := b } = spAlignCheck s :=
  congrArg (StateCond.holds s.params.spAlignCheck) (view_dit s b)

theorem memFault_dit (s : State) (b : Bool) (a : Dword) (acc : AccDesc) :
    memFault { s with dit := b } a acc = memFault s a acc :=
  congrArg (fun v => faultIn s.params.memFault v a acc) (view_dit s b)

theorem memRead_dit (s : State) (b : Bool) (a : Dword) (acc : AccDesc) (e : Nat) (r : Fin 3) :
    memRead { s with dit := b } a acc e r = memRead s a acc e r := by
  rw [memRead, memFault_dit]
  rfl

theorem spCheckFaults_dit {w : Nat} (s : State) (b : Bool) (rn : BaseReg) (mask : BitVec w) :
    spCheckFaults { s with dit := b } rn mask = spCheckFaults s rn mask := by
  cases rn with
  | x n => rfl
  | sp =>
    simp only [spCheckFaults, spMisaligned, spAlignCheck_dit]
    rfl

/-- The loads do not see `dit`: none of their reads does, whatever was read before it. -/
theorem loadStructures_dit {vl : Nat} (s : State) (b : Bool) (mask : BitVec (vl / 8)) (a : Dword) :
    loadStructures { s with dit := b } mask a = loadStructures s mask a :=
  loadStructures_congr s mask a _ fun evs e r _ _ => memRead_dit (addEvents evs s) b (memberAddress a e r) ld3bAccDesc e r

/-- Settles O18: LD3B passes its checks and loads the same with another `dit`, so it completes with the same values. -/
theorem ditHasNoEffectOnValues : Obligations.DitHasNoEffectOnValues := by
  intro i s t b h
  cases i with
  | ld3b zt pg rn rm =>
    obtain ⟨m, l, rfl, hfeat, hsve, hsp, hload, rfl⟩ := execLd3b_next zt pg rn rm s t h
    exact exec_ld3b_completes zt pg rn m { s with dit := b } l hfeat ((sveCheck_dit s b).trans hsve)
      ((spCheckFaults_dit s b rn (predicate s pg)).trans hsp)
      ((loadStructures_dit s b (predicate s pg) (startAddress s rn m)).trans hload)

/-! ## The invariant of a run (R22, R28, R134) -/

/-- Whether a recorded read is one an LD3B makes depends on the state only by the vector length and the memory. -/
theorem EventOk.of_params_mem_eq {s t : State} {ev : ReadEvent} (hp : t.params = s.params) (hm : t.mem = s.mem)
    (h : EventOk s ev) : EventOk t ev := by
  rw [EventOk, hp, hm]
  exact h

/-- The read of an element of the vector is one an LD3B makes: where the launch memory lists its byte, the oracle answers
that (R46, R48). -/
theorem eventOk_byteEvent (s : State) (rn : BaseReg) (m : Fin 31) (e : Nat) (r : Fin 3) (he : e < s.params.vl / 8) :
    EventOk s (byteEvent s rn m e r) :=
  ⟨rfl, he, fun b hb => oracle_listed s (byteAddress s rn m e r) b hb⟩

/-- An instruction that completes advances `pc` to the next word (R88). -/
theorem exec_next_pc (i : Instr) (s t : State) (h : exec i s = .next t) : t.pc = nextPc s.pc := by
  cases i with
  | ld3b zt pg rn rm =>
    obtain ⟨m, l, -, -, -, -, -, rfl⟩ := execLd3b_next zt pg rn rm s t h
    exact completeLd3b_pc zt s l

/-- An instruction that completes leaves the fault record and the refused mark as they were (R91). -/
theorem exec_next_fault_refused (i : Instr) (s t : State) (h : exec i s = .next t) :
    t.fault = s.fault ∧ t.refused = s.refused := by
  cases i with
  | ld3b zt pg rn rm =>
    obtain ⟨m, l, -, -, -, -, -, rfl⟩ := execLd3b_next zt pg rn rm s t h
    exact ⟨completeLd3b_fault zt s l, completeLd3b_refused zt s l⟩

/-- An instruction that completes adds to the history only reads that an LD3B makes (R46, R48, R90). -/
theorem exec_next_events (i : Instr) (s t : State) (h : exec i s = .next t) :
    ∃ evs, t.events = s.events ++ evs ∧ ∀ ev ∈ evs, EventOk s ev := by
  cases i with
  | ld3b zt pg rn rm =>
    obtain ⟨m, l, -, -, -, -, hload, rfl⟩ := execLd3b_next zt pg rn rm s t h
    obtain ⟨-, hevents, -⟩ := loadStructures_eq_ok s (predicate s pg) (startAddress s rn m) l hload
    refine ⟨l.events, completeLd3b_events zt s l, fun ev hev => ?_⟩
    rw [hevents, mem_readsOf] at hev
    obtain ⟨e, r, he, -, rfl⟩ := hev
    exact eventOk_byteEvent s rn m e r he

/-- Where a word is fetched, the next word's address is the address of a word of the text or the one after it (R22, R55). -/
theorem nextPc_of_fetch_word (p : Params) (pc : Dword) (w : Word) (h : fetch p pc = .word w) :
    ∃ k, k ≤ p.text.length ∧ nextPc pc = textAddress p k := by
  obtain ⟨-, hw⟩ := fetch_word p pc w h
  obtain ⟨k, hk, rfl, -⟩ := wordAt_some p pc w hw
  exact ⟨k + 1, hk, nextPc_textAddress p k⟩

/-- An instruction run at a word of the text keeps the invariant (R134). -/
theorem Inv.exec_next {s t : State} {w : Word} {i : Instr} (hinv : Inv s) (hfetch : fetch s.params s.pc = .word w)
    (hexec : exec i s = .next t) : Inv t := by
  obtain ⟨hparams, hmem⟩ := exec_next_params_mem i s t hexec
  obtain ⟨hfault, hrefused⟩ := exec_next_fault_refused i s t hexec
  obtain ⟨evs, hevents, hnew⟩ := exec_next_events i s t hexec
  refine
    { vl := hparams ▸ hinv.vl
      program := hparams ▸ hinv.program
      mem := hmem ▸ hinv.mem
      fault := hfault.trans hinv.fault
      refused := hrefused.trans hinv.refused
      pc := ?_
      events := ?_ }
  · rw [hparams, exec_next_pc i s t hexec]
    exact nextPc_of_fetch_word s.params s.pc w hfetch
  · intro ev hev
    rw [hevents, List.mem_append] at hev
    exact EventOk.of_params_mem_eq hparams hmem (hev.elim (hinv.events ev) (hnew ev))

/-- Settles O38: a step that answers a next state fetched a word of the text and ran an instruction that completes. -/
theorem stepKeepsTheInvariant : Obligations.StepKeepsTheInvariant := by
  intro s t hinv hstep
  obtain ⟨-, -, -, w, i, hfetch, -, hexec⟩ := step_next s t hstep
  exact hinv.exec_next hfetch hexec

end Sys2Proof.Machine
end

section
/-! PROOFS for `20_memory.md`: what the read primitive answers (R47, R48), the access descriptor of every read (R46), and the
part of memory that the loaded bytes depend on (R45, R85). -/

namespace Sys2Proof.Machine

/-! ## The read primitive (R47, R48) -/

/-- Settles O30: `MemFault`'s two answers are the two cases of the read, and a listed byte is the oracle's. -/
theorem readFaultsOrAnswersTheOraclesByte : Obligations.ReadFaultsOrAnswersTheOraclesByte := by
  intro s a acc e r
  refine ⟨fun f hf => ⟨memRead_error s a acc e r f hf, faultIn_addr _ _ a acc f hf⟩, fun hf => ?_, oracle_listed s a⟩
  exact ⟨_, memRead_ok s a acc e r hf, rfl, rfl, rfl, rfl, rfl, rfl⟩

/-! ## The access descriptor (R46) -/

/-- Where the pairs of a list all read, each read of their history carries the one descriptor, and `MemFault`, asked under it
in the state with the reads before it, did not fault it (R46, R47). -/
theorem historyAfter_acc_memFault {vl : Nat} (s : State) (mask : BitVec (vl / 8)) (a : Dword) (ps : List (Nat × Fin 3))
    (hread : AllReadAfter s mask a [] ps) (pre : List ReadEvent) (ev : ReadEvent) (post : List ReadEvent)
    (h : historyAfter s mask a ps = pre ++ ev :: post) :
    ev.acc = ld3bAccDesc ∧ memFault (addEvents pre s) ev.addr ev.acc = none := by
  refine ⟨?_, (allReadAfter_iff s mask a ps).mp hread pre ev post h⟩
  obtain ⟨-, er, -, -, -, -, rfl⟩ := historyAfter_split s mask a ps pre post ev h
  rfl

/-- Settles O15: the reads of a completed load are the history after all pairs, those of an aborted one the history after the
pairs before the one that failed, and either way those pairs all read. -/
theorem everyReadCarriesTheDescriptor : Obligations.EveryReadCarriesTheDescriptor := by
  constructor
  · intro zt pg rn rm s t h
    obtain ⟨m, l, -, -, -, -, hload, rfl⟩ := execLd3b_next zt pg rn rm s t h
    obtain ⟨hreads, hevents, -⟩ := loadStructures_eq_ok s (predicate s pg) (startAddress s rn m) l hload
    refine ⟨l.events, completeLd3b_events zt s l, fun pre ev post hsplit => ?_⟩
    exact historyAfter_acc_memFault s (predicate s pg) (startAddress s rn m) (loopOrder (s.params.vl / 8))
      ((allReadAfter_loopOrder s _ _).mpr hreads) pre ev post (hevents.symm.trans hsplit)
  · intro zt pg rn rm s f e r pc left h
    obtain ⟨m, ab, -, -, -, -, hload, rfl, rfl, rfl, -, rfl⟩ := execLd3b_dataAbort zt pg rn rm s f e r pc left h
    obtain ⟨-, -, hreads, hevents, hfault⟩ :=
      loadStructures_eq_error s (predicate s pg) (startAddress s rn m) ab hload
    have haddr : ab.info.addr = memberAddress (startAddress s rn m) ab.e ab.r := faultIn_addr _ _ _ _ _ hfault
    refine ⟨ab.events, rfl, haddr ▸ hfault, fun pre ev post hsplit => ?_⟩
    exact historyAfter_acc_memFault s (predicate s pg) (startAddress s rn m) (pairsBefore ab.e ab.r) hreads pre ev post
      (hevents.symm.trans hsplit)

/-! ## What the loads and the check see of a state (R45, R82, R85) -/

/-- The oracle depends on the state by what the memory lists at the address, and by the free values of the execution. -/
theorem oracle_congr {s s' : State} {a : Dword} (hmem : s'.mem.byteAt a.toNat = s.mem.byteAt a.toNat)
    (hdraws : s'.draws = s.draws) : oracle s' a = oracle s a := by
  simp only [oracle, hmem, hdraws]

/-- A read depends on the state by what `MemFault` and the oracle say of the address, and by `pc`. -/
theorem memRead_congr {s s' : State} {a : Dword} {acc : AccDesc} (e : Nat) (r : Fin 3)
    (hfault : memFault s' a acc = memFault s a acc) (horacle : oracle s' a = oracle s a) (hpc : s'.pc = s.pc) :
    memRead s' a acc e r = memRead s a acc e r := by
  simp only [memRead, hfault, horacle, hpc]

/-- The stack-pointer check depends on the state by the parameter, by `sp` and by the free values of the execution. -/
theorem spCheckFaults_congr {w : Nat} {s s' : State} (rn : BaseReg) (mask : BitVec w)
    (harmed : spAlignCheck s' = spAlignCheck s) (hsp : s'.sp = s.sp) (hdraws : s'.draws = s.draws) :
    spCheckFaults s' rn mask = spCheckFaults s rn mask := by
  cases rn with
  | x n => rfl
  | sp => simp only [spCheckFaults, spMisaligned, spCheckCalled, harmed, hsp, hdraws]

/-- Two states of which the parameters answer the same, with the same `pc` and free values and with memories that list the
same at the active addresses, load the same: an inactive member's byte is not read (R45, R85). -/
theorem loadStructures_of_helpersAgree {vl : Nat} {s s' : State} (mask : BitVec (vl / 8)) (a : Dword)
    (hagree : HelpersAgree s s') (hpc : s'.pc = s.pc) (hdraws : s'.draws = s.draws)
    (hmem : ∀ e r, e < vl / 8 → active mask e = true →
      s'.mem.byteAt (memberAddress a e r).toNat = s.mem.byteAt (memberAddress a e r).toNat) :
    loadStructures s' mask a = loadStructures s mask a := by
  obtain ⟨-, -, hfault⟩ := hagree
  refine loadStructures_congr s mask a s' fun evs e r he hact => ?_
  have horacle : oracle (addEvents evs s') (memberAddress a e r) = oracle (addEvents evs s) (memberAddress a e r) :=
    oracle_congr (hmem e r he hact) hdraws
  exact memRead_congr e r (hfault evs (memberAddress a e r) ld3bAccDesc) horacle hpc

/-- Settles O17: with the other memory LD3B passes its checks and loads the same, so it completes with the same values. -/
theorem onlyActiveBytesOfMemoryMatter : Obligations.OnlyActiveBytesOfMemoryMatter := by
  intro zt pg rn m s t other hmem hagree h
  obtain ⟨m', l, hm, hfeat, hsve, hsp, hload, rfl⟩ := execLd3b_next zt pg rn m.castSucc s t h
  obtain rfl : m = m' := Fin.castSucc_injective _ hm
  have ⟨hsveAgree, hspAgree, _⟩ := hagree
  have hspOther : spCheckFaults { s with mem := other } rn (predicate s pg) = false :=
    (spCheckFaults_congr rn (predicate s pg) hspAgree rfl rfl).trans hsp
  have hloadOther : loadStructures { s with mem := other } (predicate s pg) (startAddress s rn m) = .ok l := by
    rw [loadStructures_of_helpersAgree (predicate s pg) (startAddress s rn m) hagree rfl rfl, hload]
    intro e r he hact
    rw [memberAddress_startAddress]
    exact hmem e r he hact
  exact exec_ld3b_completes zt pg rn m { s with mem := other } l hfeat (hsveAgree.trans hsve) hspOther hloadOther

end Sys2Proof.Machine
end

section
/-! PROOFS for `30_encoding.md`: decoder and encoder as inverses, the verdicts by the bits of the word, the numbers of words,
the assembler's lines (R61 to R72), and what a step does at a word that is undefined or not shown (R68, R101). -/

namespace Sys2Proof

/-! ## The decoder and the encoder are inverse (R61 to R66) -/

/-- An instruction is well formed when its field `Rm` is not `11111` (R65). -/
theorem wf_iff (zt : Fin 32) (pg : Fin 8) (rn : BaseReg) (rm : Fin 32) : (Instr.ld3b zt pg rn rm).wf = true ↔ rm ≠ 31 := by
  simp [Instr.wf]

/-- A matched word is the word of the operands in its fields (R62, R63). -/
theorem encode_operandsOf (w : Word) (h : w &&& ld3bMask = ld3bMatch) : encode (operandsOf w) = w := by
  obtain ⟨htop, hmid⟩ := (matches_iff w).mp h
  rw [operandsOf, encode_eq_layout, fieldOfBase_baseOfField, ← htop, ← hmid]
  exact layout_parts w

/-- The words that decode to an instruction are the words of the well-formed instructions, where a feature is implemented
(R61 to R66): both directions of the round trip. -/
theorem decode_eq_instr_iff (f : Features) (w : Word) (i : Instr) :
    decode f w = .instr i ↔ f.available = true ∧ i.wf = true ∧ encode i = w := by
  constructor
  · intro h
    obtain ⟨hmatch, hfeat, hrm, rfl⟩ := decode_instr f w i h
    exact ⟨hfeat, (wf_iff _ _ _ _).mpr hrm, encode_operandsOf w hmatch⟩
  · rintro ⟨hfeat, hwf, rfl⟩
    cases i with
    | ld3b zt pg rn rm =>
      have hmatch : encode (.ld3b zt pg rn rm) &&& ld3bMask = ld3bMatch := Laws.EncodeMatches.ld3b zt pg rn rm
      simp [decode, hmatch, hfeat, (wf_iff zt pg rn rm).mp hwf]

/-- Settles O1: `decode_eq_instr_iff` at the word of the instruction, and for its bytes `decodeBytes_wordBytes`. -/
theorem decodeOfEncodeIsTheInstruction : Obligations.DecodeOfEncodeIsTheInstruction := by
  intro f i rest hfeat hwf
  have hdecode : decode f (encode i) = .instr i :=
    (decode_eq_instr_iff f (encode i) i).mpr ⟨(Machine.available_iff f).mpr hfeat, hwf, rfl⟩
  exact ⟨hdecode, by rw [decodeBytes_wordBytes, hdecode]⟩

/-- Settles O2: the other direction of `decode_eq_instr_iff`. -/
theorem encodeOfDecodedIsTheWord : Obligations.EncodeOfDecodedIsTheWord := by
  intro f w i h
  obtain ⟨-, hwf, hencode⟩ := (decode_eq_instr_iff f w i).mp h
  exact ⟨hencode, hwf⟩

/-- Settles O9: the words written out are the encoder's words of their instructions, and the bytes are those of EN6's word. -/
theorem writtenOutWordsDecode : Obligations.WrittenOutWordsDecode := by
  refine ⟨(decode_eq_instr_iff _ _ _).mpr (by decide), (decode_eq_instr_iff _ _ _).mpr (by decide), ?_⟩
  have hdecode : decode tableFeatures 0xA44AC55D#32 = .instr (.ld3b 29 1 (.x 10) 10) :=
    (decode_eq_instr_iff _ _ _).mpr (by decide)
  have hbytes := decodeBytes_wordBytes tableFeatures 0xA44AC55D#32 []
  rwa [hdecode] at hbytes

/-! ## The other two verdicts (R65 to R68) -/

/-- A word is not shown exactly when it does not match the row (R68). -/
theorem decode_eq_notShown_iff (f : Features) (w : Word) : decode f w = .notShown ↔ w &&& ld3bMask ≠ ld3bMatch := by
  rcases decode_cases f w with ⟨hw, hd⟩ | ⟨hw, -, hd⟩ | ⟨hw, -, -, hd⟩ <;> simp [hw, hd]

/-- A matched word is undefined exactly when no feature is implemented or `Rm` is `11111` (R65, R66). -/
theorem decode_eq_undefined_iff (f : Features) (w : Word) :
    decode f w = .undefined ↔ w &&& ld3bMask = ld3bMatch ∧ (f.available = false ∨ fieldRm w = 31) := by
  rcases decode_cases f w with ⟨hw, hd⟩ | ⟨hw, hwhy, hd⟩ | ⟨hw, hfeat, hrm, hd⟩
  · simp [hw, hd]
  · simp [hw, hd, hwhy]
  · simp [hd, hfeat, hrm]

/-- The field `Rm` is 31 exactly when its bits are all ones (R63, R65). -/
theorem fieldRm_eq_31_iff (w : Word) : fieldRm w = 31 ↔ w.extractLsb' 16 5 = 0b11111#5 :=
  BitVec.toFin_inj (y := 0b11111#5)

/-- Settles O3: when each verdict is given, with `matches_iff` and `fieldRm_eq_31_iff` for the bits. -/
theorem verdictsByTheBitsOfTheWord : Obligations.VerdictsByTheBitsOfTheWord := by
  intro f w
  rw [← matches_iff, ← fieldRm_eq_31_iff, ← Machine.not_available_iff]
  exact ⟨decode_eq_notShown_iff f w, decode_eq_undefined_iff f w⟩

/-! ## The values of the fields (R63, R64) -/

theorem fieldZt_val (w : Word) : (fieldZt w).val = w.toNat % 2 ^ 5 := BitVec.extractLsb'_toNat 0 5 w

theorem fieldRn_val (w : Word) : (fieldRn w).val = w.toNat / 2 ^ 5 % 2 ^ 5 := by
  rw [← Nat.shiftRight_eq_div_pow]
  exact BitVec.extractLsb'_toNat 5 5 w

theorem fieldPg_val (w : Word) : (fieldPg w).val = w.toNat / 2 ^ 10 % 2 ^ 3 := by
  rw [← Nat.shiftRight_eq_div_pow]
  exact BitVec.extractLsb'_toNat 10 3 w

theorem fieldRm_val (w : Word) : (fieldRm w).val = w.toNat / 2 ^ 16 % 2 ^ 5 := by
  rw [← Nat.shiftRight_eq_div_pow]
  exact BitVec.extractLsb'_toNat 16 5 w

/-- The field value 31 names the stack pointer (R64). -/
theorem baseOfField_of_val_eq_31 (n : Fin 32) (h : n.val = 31) : baseOfField n = .sp := by
  simp [baseOfField, h]

/-- A field value below 31 names the general register of its number (R64). -/
theorem baseOfField_of_val_eq (n : Fin 32) (k : Fin 31) (h : n.val = k.val) : baseOfField n = .x k := by
  simp [baseOfField, h]

/-- Settles O4: the operands are those of `operandsOf`, with the fields' values. -/
theorem operandsAreTheFieldsOfTheWord : Obligations.OperandsAreTheFieldsOfTheWord := by
  intro f w zt pg rn rm h
  obtain ⟨-, -, hrm, hops⟩ := decode_instr f w _ h
  obtain ⟨rfl, rfl, rfl, rfl⟩ := Instr.ld3b.inj hops
  rw [← fieldRn_val]
  exact ⟨fieldZt_val w, fieldPg_val w, fieldRm_val w, by omega, baseOfField_of_val_eq_31 _, baseOfField_of_val_eq _⟩

/-! ## The encoded word as a number (R72) -/

/-- The parts of an appended word do not overlap, so its value is a sum. -/
theorem toNat_append_eq_add {m n : Nat} (x : BitVec m) (y : BitVec n) : (x ++ y).toNat = x.toNat * 2 ^ n + y.toNat := by
  rw [BitVec.toNat_append, ← Nat.shiftLeft_add_eq_or_of_lt y.isLt, Nat.shiftLeft_eq]

/-- The value of a word laid out from its parts (R61). -/
theorem toNat_layout (a : BitVec 11) (m : BitVec 5) (b g : BitVec 3) (n t : BitVec 5) :
    (layout a m b g n t).toNat =
      a.toNat * 2 ^ 21 + m.toNat * 2 ^ 16 + b.toNat * 2 ^ 13 + g.toNat * 2 ^ 10 + n.toNat * 2 ^ 5 + t.toNat := by
  simp only [layout, toNat_append_eq_add]
  ring

theorem fieldOfBase_x_val (n : Fin 31) : (fieldOfBase (.x n)).val = n.val := rfl

theorem fieldOfBase_sp_val : (fieldOfBase .sp).val = 31 := rfl

/-- Settles O7: the layout's sum, whose two fixed parts make up `0xA440C000`. -/
theorem encodedWordAsASum : Obligations.EncodedWordAsASum := by
  intro zt pg rn rm
  have htop : (0b10100100010#11).toNat = 0b10100100010 := rfl
  have hmid : (0b110#3).toNat = 0b110 := rfl
  rw [encode_eq_layout, toNat_layout]
  simp only [htop, hmid, BitVec.toNat_ofFin]
  cases rn with
  | x n =>
    simp only [fieldOfBase_x_val]
    omega
  | sp =>
    simp only [fieldOfBase_sp_val]
    omega

/-! ## Masks of whole parts (R62, R65) -/

/-- A word is a layout when its parts are the layout's (R61). -/
theorem eq_layout_iff (w : Word) (a : BitVec 11) (m : BitVec 5) (b g : BitVec 3) (n t : BitVec 5) :
    w = layout a m b g n t ↔ w.extractLsb' 21 11 = a ∧ w.extractLsb' 16 5 = m ∧ w.extractLsb' 13 3 = b ∧
      w.extractLsb' 10 3 = g ∧ w.extractLsb' 5 5 = n ∧ w.extractLsb' 0 5 = t := by
  constructor
  · rintro rfl
    exact ⟨layout_top .., layout_rm .., layout_mid .., layout_pg .., layout_rn .., layout_zt ..⟩
  · rintro ⟨rfl, rfl, rfl, rfl, rfl, rfl⟩
    exact (layout_parts w).symm

/-- A mask laid out by parts keeps of each part of a word what the mask's part keeps. -/
theorem and_layout (w : Word) (a : BitVec 11) (m : BitVec 5) (b g : BitVec 3) (n t : BitVec 5) :
    w &&& layout a m b g n t =
      layout (w.extractLsb' 21 11 &&& a) (w.extractLsb' 16 5 &&& m) (w.extractLsb' 13 3 &&& b) (w.extractLsb' 10 3 &&& g)
        (w.extractLsb' 5 5 &&& n) (w.extractLsb' 0 5 &&& t) := by
  simp only [eq_layout_iff, BitVec.extractLsb'_and, layout_top, layout_rm, layout_mid, layout_pg, layout_rn, layout_zt,
    and_self]

/-- The mask of bits 20:16 leaves itself exactly where the field `Rm` is 31 (R65). -/
theorem and_rmMask_iff (w : Word) : w &&& 0x001F0000#32 = 0x001F0000#32 ↔ fieldRm w = 31 := by
  have hmask : 0x001F0000#32 = layout 0#11 (BitVec.allOnes 5) 0#3 0#3 0#5 0#5 := by decide
  rw [fieldRm_eq_31_iff, hmask, and_layout, eq_layout_iff]
  simp only [layout_top, layout_rm, layout_mid, layout_pg, layout_rn, layout_zt, BitVec.and_allOnes, BitVec.and_zero,
    and_true, true_and]
  exact Iff.rfl

/-- The pattern of the undefined words is the row's with `Rm` fixed to `11111` (R65). -/
theorem and_undefinedMask_iff (w : Word) :
    w &&& 0xFFFFE000#32 = 0xA45FC000#32 ↔ w &&& ld3bMask = ld3bMatch ∧ fieldRm w = 31 := by
  have hmask : 0xFFFFE000#32 = layout (BitVec.allOnes 11) (BitVec.allOnes 5) (BitVec.allOnes 3) 0#3 0#5 0#5 := by decide
  have hval : 0xA45FC000#32 = layout 0b10100100010#11 0b11111#5 0b110#3 0#3 0#5 0#5 := by decide
  rw [matches_iff, fieldRm_eq_31_iff, hmask, hval, and_layout, eq_layout_iff]
  simp only [layout_top, layout_rm, layout_mid, layout_pg, layout_rn, layout_zt, BitVec.and_allOnes, BitVec.and_zero,
    and_true]
  rw [and_assoc, and_comm (a := w.extractLsb' 16 5 = 0b11111#5)]

/-! ## The numbers of words (R62, R65) -/

/-- The word with given values of the four fields `Zt`, `Pg`, `Rn`, `Rm` (R61, R63). -/
def wordOfFields (v : Fin 32 × Fin 8 × Fin 32 × Fin 32) : Word :=
  encode (.ld3b v.1 v.2.1 (baseOfField v.2.2.1) v.2.2.2)

/-- The four fields determine the word: they are read back from it. -/
theorem wordOfFields_injective : Function.Injective wordOfFields := by
  have hread : Function.LeftInverse (fun w => (fieldZt w, fieldPg w, fieldRn w, fieldRm w)) wordOfFields := by
    rintro ⟨zt, pg, n, rm⟩
    simp [wordOfFields]
  exact hread.injective

/-- The matched words whose field `Rm` is in `S` are the words of all values of the other fields (R62, R63). -/
theorem matched_eq_image (S : Finset (Fin 32)) :
    { w : Word | w &&& ld3bMask = ld3bMatch ∧ fieldRm w ∈ S } =
      wordOfFields '' (Finset.univ ×ˢ Finset.univ ×ˢ Finset.univ ×ˢ S : Finset (Fin 32 × Fin 8 × Fin 32 × Fin 32)) := by
  ext w
  simp only [Set.mem_ofPred_eq, Set.mem_image, Finset.mem_coe, Finset.mem_product, Finset.mem_univ, true_and]
  constructor
  · rintro ⟨hmatch, hrm⟩
    exact ⟨(fieldZt w, fieldPg w, fieldRn w, fieldRm w), hrm, encode_operandsOf w hmatch⟩
  · rintro ⟨⟨zt, pg, n, rm⟩, hrm, rfl⟩
    exact ⟨Laws.EncodeMatches.ld3b zt pg (baseOfField n) rm, by simpa [wordOfFields] using hrm⟩

/-- Each value of the field `Rm` has 8,192 matched words: 32 values of `Zt`, 8 of `Pg` and 32 of `Rn` (R61, R62). -/
theorem ncard_matched (S : Finset (Fin 32)) :
    Set.ncard { w : Word | w &&& ld3bMask = ld3bMatch ∧ fieldRm w ∈ S } = 8192 * S.card := by
  rw [matched_eq_image, Set.ncard_image_of_injective _ wordOfFields_injective, Set.ncard_coe_finset]
  simp only [Finset.card_product, Finset.card_univ, Fintype.card_fin]
  ring

/-- There are 8,192 matched words with `Rm = 11111` (R65). -/
theorem ncard_matched_index_31 : Set.ncard { w : Word | w &&& ld3bMask = ld3bMatch ∧ fieldRm w = 31 } = 8192 := by
  simpa using ncard_matched {31}

/-- A word decodes to some instruction where a feature is implemented, the word matches and `Rm` is not `11111` (R62, R65). -/
theorem exists_decode_instr_iff (f : Features) (w : Word) (hfeat : f.available = true) :
    (∃ i, decode f w = .instr i) ↔ w &&& ld3bMask = ld3bMatch ∧ fieldRm w ∈ ({31}ᶜ : Finset (Fin 32)) := by
  rcases decode_cases f w with ⟨hw, hd⟩ | ⟨-, hwhy, hd⟩ | ⟨hw, -, hrm, hd⟩
  · simp [hw, hd]
  · simpa [hfeat, hd] using fun _ => hwhy
  · simp [hw, hd, hrm]

/-- Settles O6: the defined words have one of 31 values of `Rm`, the undefined ones the value 31. -/
theorem countOfDefinedAndUndefinedWords : Obligations.CountOfDefinedAndUndefinedWords := by
  intro f hf
  have hfeat : f.available = true := (Machine.available_iff f).mpr hf
  constructor
  · simp only [exists_decode_instr_iff f _ hfeat, ncard_matched, Finset.card_compl, Finset.card_singleton, Fintype.card_fin]
  · simpa [decode_eq_undefined_iff, hfeat] using ncard_matched_index_31

/-! ## Assembler lines (R70 to R72) -/

/-- The names that are a base register are the names of base registers (R71). -/
theorem asmBase_eq_some_iff (x : XName) (rn : BaseReg) : asmBase x = some rn ↔ x = nameOfBase rn := by
  constructor
  · intro h
    cases x with
    | x n =>
      obtain ⟨hn, rfl⟩ : ∃ hn : n < 31, BaseReg.x ⟨n, hn⟩ = rn := by simpa [asmBase] using h
      rfl
    | sp => cases h; rfl
    | xzr => cases h
  · rintro rfl
    cases rn <;> simp [asmBase, nameOfBase]

/-- The names that are an index register are X0 to X30 (R65, R72). -/
theorem asmIndex_eq_some_iff (x : XName) (rm : Fin 32) : asmIndex x = some rm ↔ rm ≠ 31 ∧ x = .x rm.val := by
  cases x with
  | x j =>
    have hval : (∃ _ : j < 31, j = rm.val) ↔ rm.val ≠ 31 ∧ j = rm.val := by
      rw [exists_prop]
      omega
    simpa [asmIndex, Fin.ext_iff] using hval
  | sp => simp [asmIndex]
  | xzr => simp [asmIndex]

/-- What each operand of an assembled line must be (R72). -/
theorem assemble_eq_ld3b_iff (l : AsmLine) (zt : Fin 32) (pg : Fin 8) (rn : BaseReg) (rm : Fin 32) :
    assemble l = some (.ld3b zt pg rn rm) ↔
      l.zt1 = zt.val ∧ l.zt2 = (zt.val + 1) % 32 ∧ l.zt3 = (zt.val + 2) % 32 ∧ l.pg = pg.val ∧
        asmBase l.base = some rn ∧ asmIndex l.index = some rm := by
  constructor
  · intro h
    unfold assemble at h
    split_ifs at h with hzt hpg hconsecutive
    split at h
    next rn' rm' hbase hindex =>
      cases h
      exact ⟨rfl, hconsecutive.1, hconsecutive.2, rfl, hbase, hindex⟩
    next => cases h
  · rintro ⟨hzt1, hzt2, hzt3, hpg, hbase, hindex⟩
    simp [assemble, hzt1, hzt2, hzt3, hpg, hbase, hindex]

/-- The encodable lines are the disassembled well-formed instructions (R72): assembler and disassembler are inverse. -/
theorem assemble_eq_some_iff (l : AsmLine) (i : Instr) : assemble l = some i ↔ i.wf = true ∧ l = disassemble i := by
  cases i with
  | ld3b zt pg rn rm =>
    obtain ⟨zt1, zt2, zt3, g, base, index⟩ := l
    rw [assemble_eq_ld3b_iff, asmBase_eq_some_iff, asmIndex_eq_some_iff, wf_iff, disassemble, AsmLine.mk.injEq]
    tauto

/-- The names of base registers are `SP` and X0 to X30 (R71). -/
theorem exists_eq_nameOfBase_iff (x : XName) : (∃ rn, x = nameOfBase rn) ↔ x = .sp ∨ ∃ n, n ≤ 30 ∧ x = .x n := by
  constructor
  · rintro ⟨rn, rfl⟩
    cases rn with
    | x n => exact .inr ⟨n.val, by omega, rfl⟩
    | sp => exact .inl rfl
  · rintro (rfl | ⟨n, hn, rfl⟩)
    · exact ⟨.sp, rfl⟩
    · exact ⟨.x ⟨n, by omega⟩, rfl⟩

/-- The index of an encodable line is one of X0 to X30 (R65, R72). -/
theorem disassemble_index (i : Instr) (h : i.wf = true) : ∃ j, j ≤ 30 ∧ (disassemble i).index = .x j := by
  cases i with
  | ld3b zt pg rn rm =>
    have hrm : rm ≠ 31 := (wf_iff zt pg rn rm).mp h
    exact ⟨rm.val, by omega, rfl⟩

/-- Settles O8: the encodable lines are those that `disassemble` makes of the well-formed instructions. -/
theorem assemblerLineEncodableExactly : Obligations.AssemblerLineEncodableExactly := by
  refine ⟨fun l => ⟨?_, ?_⟩, fun l i h => ?_, fun i h => (assemble_eq_some_iff _ i).mpr ⟨h, rfl⟩⟩
  · rintro ⟨i, h⟩
    obtain ⟨hwf, rfl⟩ := (assemble_eq_some_iff l i).mp h
    have hindex := disassemble_index i hwf
    cases i with
    | ld3b zt pg rn rm =>
      exact ⟨zt.isLt, rfl, rfl, Nat.le_of_lt_succ pg.isLt, (exists_eq_nameOfBase_iff _).mp ⟨rn, rfl⟩, hindex⟩
  · rintro ⟨hzt1, hzt2, hzt3, hpg, hbase, j, hj, hindex⟩
    obtain ⟨rn, hrn⟩ := (exists_eq_nameOfBase_iff l.base).mpr hbase
    refine ⟨.ld3b ⟨l.zt1, hzt1⟩ ⟨l.pg, by omega⟩ rn ⟨j, by omega⟩, (assemble_eq_ld3b_iff ..).mpr ?_⟩
    refine ⟨rfl, hzt2, hzt3, rfl, (asmBase_eq_some_iff _ _).mpr hrn, (asmIndex_eq_some_iff _ _).mpr ⟨?_, hindex⟩⟩
    exact Fin.ne_of_val_ne (by simpa using (by omega : j ≠ 31))
  · obtain ⟨hwf, hl⟩ := (assemble_eq_some_iff l i).mp h
    exact ⟨hwf, hl.symm⟩

end Sys2Proof

namespace Sys2Proof.Machine

/-! ## Steps at words that are no instruction (R68, R101) -/

/-- A step at an undefined word raises `UndefinedInstruction` of the state as it is (R67, R101). -/
theorem step_undefined (s : State) (w : Word) (hruns : RunsWord s w) (hd : decode s.params.features w = .undefined) :
    step s = .fault (.undefinedInstruction w s.pc { s with fault := some (.undefinedInstruction w s.pc) }) := by
  obtain ⟨hfault, hrefused, hvl, hfetch⟩ := hruns
  rw [step_word s w hfault hrefused hvl hfetch, runWord, hd]
  rfl

/-- Settles O5: the words of the pattern are the matched words with `Rm = 11111`, and no well-formed instruction has that
index. -/
theorem indexThirtyOneIsUndefined : Obligations.IndexThirtyOneIsUndefined := by
  refine ⟨fun f s w hw => ?_, ?_, fun f w zt pg rn h => ?_, fun l i h => ?_⟩
  · obtain ⟨hmatch, hrm⟩ := (and_undefinedMask_iff w).mp hw
    have hundefined (f : Features) : decode f w = .undefined := (decode_eq_undefined_iff f w).mpr ⟨hmatch, .inr hrm⟩
    exact ⟨hundefined f, fun hruns => step_undefined s w hruns (hundefined s.params.features)⟩
  · simpa only [and_undefinedMask_iff] using ncard_matched_index_31
  · obtain ⟨-, hwf, -⟩ := (decode_eq_instr_iff f w _).mp h
    exact (wf_iff zt pg rn 31).mp hwf rfl
  · obtain ⟨hwf, rfl⟩ := (assemble_eq_some_iff l i).mp h
    exact disassemble_index i hwf

/-- Settles O20: both grounds make the matched word undefined. -/
theorem undefinedInstructionChangesNoState : Obligations.UndefinedInstructionChangesNoState := by
  intro s w hruns hmatch hwhy
  rw [and_rmMask_iff, ← not_available_iff] at hwhy
  exact step_undefined s w hruns ((decode_eq_undefined_iff s.params.features w).mpr ⟨hmatch, hwhy.symm⟩)

/-- Settles O35: a word that does not match is not shown, and the step refuses it. -/
theorem wordNotShownIsRefused : Obligations.WordNotShownIsRefused := by
  intro s w hruns hmatch
  obtain ⟨hfault, hrefused, hvl, hfetch⟩ := hruns
  rw [step_word s w hfault hrefused hvl hfetch, runWord, (decode_eq_notShown_iff s.params.features w).mpr hmatch]
  rfl

/-! ## The meaning on undefined operands (R65, R66; log 26) -/

/-- LD3B without a feature, or with index register 31, is undefined whatever else the state holds (R65, R66). -/
theorem execLd3b_undefined (zt : Fin 32) (pg : Fin 8) (rn : BaseReg) (rm : Fin 32) (s : State)
    (h : rm = 31 ∨ s.params.features.available = false) :
    execLd3b zt pg rn rm s = raiseFault (.undefinedInstruction (encode (.ld3b zt pg rn rm)) s.pc) s := by
  rcases h with rfl | hfeat
  · simp [execLd3b]
  · simp [execLd3b, hfeat]

/-- Settles O21: `execLd3b_undefined`, with what a raise answers. -/
theorem execOfUndefinedOperandsRaises : Obligations.ExecOfUndefinedOperandsRaises := by
  intro zt pg rn rm s h
  rw [← not_available_iff] at h
  rw [exec_ld3b, execLd3b_undefined zt pg rn rm s h, raiseFault_eq]
  rfl

end Sys2Proof.Machine
end

section
/-! PROOFS for `40_ld3b_scalar_plus_scalar.md`: the start address (R83), the stack-pointer check (R82), when LD3B completes and
with what (R84 to R90), its frame (R91), and the addresses of its reads (R89). -/

namespace Sys2Proof.Machine

/-! ## The start address (R83, R89) -/

/-- The index is added modulo 2^64, whatever the base register (R83). -/
theorem startAddress_toNat (s : State) (rn : BaseReg) (m : Fin 31) :
    (startAddress s rn m).toNat = ((baseValue s rn).toNat + s.x[m.val].toNat) % 2 ^ 64 := by
  rw [startAddress_add, BitVec.toNat_add]

/-- Adding the index of all ones takes one away (R83, R89). -/
theorem startAddress_of_index_allOnes (s : State) (rn : BaseReg) (m : Fin 31) (h : s.x[m.val] = BitVec.allOnes 64) :
    startAddress s rn m = baseValue s rn - 1 := by
  rw [startAddress_add, h, ← BitVec.neg_one_eq_allOnes, BitVec.sub_eq_add_neg]
  rfl

/-- Settles O32: the start address is one sum modulo 2^64 for every base register. -/
theorem startAddressIsAModularSum : Obligations.StartAddressIsAModularSum := by
  refine ⟨fun s n m => ⟨startAddress_add s (.x n) m, startAddress_toNat s (.x n) m⟩,
    fun s m => ⟨startAddress_add s .sp m, startAddress_toNat s .sp m⟩, fun s n => ?_, fun s n m h => ?_⟩
  · exact (startAddress_add s (.x n) n).trans BitVec.two_mul.symm
  · exact ⟨startAddress_of_index_allOnes s (.x n) m h, startAddress_of_index_allOnes s .sp m h⟩

/-! ## The three destinations (R64, R86) -/

/-- `writeDests_other`, with the destination numbers written out as the statements write them (R64). -/
theorem writeDests_of_ne {w : Nat} (z : Vector (BitVec w) 32) (t : Fin 32) (v : Vector (BitVec w) 3) (i : Fin 32)
    (h : ∀ r : Fin 3, i.val ≠ (t.val + r.val) % 32) : (writeDests z t v)[i.val] = z[i.val] :=
  writeDests_other z t v i fun r hr => h r (congrArg Fin.val hr)

/-- A destination to which three zero vectors are written is zero (R86, R89). -/
theorem writeDests_empty_dest {w : Nat} (z : Vector (BitVec w) 32) (t : Fin 32) (r : Fin 3) :
    (writeDests z t (Loaded.empty w).vals)[(t.val + r.val) % 32] = 0 := by
  refine (writeDests_dest z t (Loaded.empty w).vals r).trans ?_
  match r with
  | 0 | 1 | 2 => rfl

/-! ## The stack-pointer check (R82, R103) -/

/-- A stack-pointer fault of LD3B comes from the check alone, which base SP alone has (R82). -/
theorem execLd3b_spAlignmentFault (zt : Fin 32) (pg : Fin 8) (rn : BaseReg) (rm : Fin 32) (s : State) (pc sp : Dword)
    (left : State) (h : execLd3b zt pg rn rm s = .fault (.spAlignmentFault pc sp left)) :
    spCheckFaults s rn (predicate s pg) = true := by
  rcases execLd3b_cases zt pg rn rm s with ⟨-, he⟩ | ⟨m, -, -, ⟨k, -, he⟩ | ⟨-, hc, -⟩ | ⟨-, -, he⟩⟩
  · simp [he, raiseFault, faultOf] at h
  · simp [he, raiseFault, faultOf] at h
  · exact hc
  · rcases ld3bTransfer_cases zt s (predicate s pg) (startAddress s rn m) with ⟨l, -, ht⟩ | ⟨ab, -, ht⟩
    · simp [he, ht] at h
    · simp [he, ht, raiseFault, faultOf] at h

/-- Settles O25: the check of a general register as base never faults. -/
theorem generalBaseIsNeverChecked : Obligations.GeneralBaseIsNeverChecked := by
  intro zt pg n rm s pc sp left h
  have hcheck := execLd3b_spAlignmentFault zt pg (.x n) rm s pc sp left h
  rw [spCheckFaults_x] at hcheck
  exact Bool.false_ne_true hcheck

/-- What a stack-pointer fault leaves, written as one update of the state: no read is recorded, and of the registers only the
destinations may change (R103, R107). -/
theorem exec_ld3b_spFault_eq (zt : Fin 32) (pg : Fin 8) (rn : BaseReg) (m : Fin 31) (s : State) (he : Enabled s)
    (hc : spCheckFaults s rn (predicate s pg) = true) :
    exec (.ld3b zt pg rn m.castSucc) s =
      .fault (.spAlignmentFault s.pc s.sp
        { s with
          z := writeDests s.z zt (freeVectors s.draws s.params.vl)
          draws := s.draws + 1
          fault := some (.spAlignmentFault s.pc s.sp) }) := by
  rw [exec_ld3b_spFault zt pg rn m s he hc, raiseFault_eq]
  rfl

/-- Settles O23: with an element active the check is the alignment test, and it fails. -/
theorem misalignedStackPointerFaults : Obligations.MisalignedStackPointerFaults := by
  intro zt pg rn m s he hwould hactive
  obtain rfl : rn = .sp := hwould.1
  have hcheck : spCheckFaults s .sp (predicate s pg) = true :=
    (spCheckFaults_sp_active s (predicate s pg) hactive).trans (spMisaligned_of_wouldFault s .sp hwould)
  exact ⟨_, exec_ld3b_spFault_eq zt pg .sp m s he hcheck, writeDests_of_ne s.z zt _⟩

/-! ## No element active (R85, R89) -/

/-- With no element active LD3B, once its checks have passed, writes three zero vectors and records no read (R85, R89). -/
theorem exec_ld3b_inactive (zt : Fin 32) (pg : Fin 8) (rn : BaseReg) (m : Fin 31) (s : State) (he : Enabled s)
    (hc : spCheckFaults s rn (predicate s pg) = false) (hp : s.p[pg.val] = 0) :
    exec (.ld3b zt pg rn m.castSucc) s =
      .next { s with
        z := writeDests s.z zt (Loaded.empty s.params.vl).vals
        pc := s.pc + 4
        draws := s.draws + 1 } := by
  have hload := loadStructures_inactive s (predicate s pg) (startAddress s rn m) hp
  rw [exec_ld3b_completes zt pg rn m s _ ((available_iff _).mpr he.1) he.2 hc hload, completeLd3b_eq]
  simp [Loaded.empty]

/-- Settles O12: the check passes, and `exec_ld3b_inactive` says the rest. -/
theorem ld3bWithNoActiveElementZeroes : Obligations.Ld3bWithNoActiveElementZeroes := by
  intro zt pg rn m s he hpass hp
  exact ⟨_, exec_ld3b_inactive zt pg rn m s he (spCheckFaults_false s rn _ hpass) hp, writeDests_empty_dest s.z zt,
    writeDests_of_ne s.z zt _⟩

/-- With no element active, a check that would fault is the free Boolean of this execution (R11, R82). -/
theorem spCheckFaults_of_wouldFault_inactive (s : State) (pg : Fin 8) (h : SpCheckWouldFault s .sp)
    (hp : s.p[pg.val] = 0) : spCheckFaults s .sp (predicate s pg) = Config.checkSpNoneActive s.draws := by
  rw [predicate, hp, spCheckFaults_sp_inactive, spMisaligned_of_wouldFault s .sp h, Bool.true_and]

/-- Settles O24: the two values of the free Boolean are the faulting and the completing LD3B. -/
theorem misalignedStackPointerWithNoActiveElement : Obligations.MisalignedStackPointerWithNoActiveElement := by
  intro zt pg rn m s he hwould hp
  obtain rfl : rn = .sp := hwould.1
  have hcheck := spCheckFaults_of_wouldFault_inactive s pg hwould hp
  refine ⟨writeDests s.z zt (freeVectors s.draws s.params.vl), writeDests s.z zt (Loaded.empty s.params.vl).vals, ?_,
    writeDests_empty_dest s.z zt, fun i hi => ⟨writeDests_of_ne s.z zt _ i hi, writeDests_of_ne s.z zt _ i hi⟩⟩
  split
  next hdraw => exact exec_ld3b_spFault_eq zt pg .sp m s he (hcheck.trans hdraw)
  next hdraw => exact exec_ld3b_inactive zt pg .sp m s he (hcheck.trans (Bool.eq_false_iff.mpr hdraw)) hp

/-! ## When LD3B completes, and with what (R80, R90, R131) -/

/-- LD3B completes exactly where it is defined and enabled, the stack-pointer check does not fault and every active byte is
readable at its turn; it then leaves the bytes of the active pairs and zero else, with their reads recorded. -/
theorem exec_ld3b_eq_next_iff (zt : Fin 32) (pg : Fin 8) (rn : BaseReg) (m : Fin 31) (s t : State) :
    exec (.ld3b zt pg rn m.castSucc) s = .next t ↔
      Enabled s ∧ spCheckFaults s rn (predicate s pg) = false ∧
      (∀ (e : Nat) (r : Fin 3), e < s.params.vl / 8 → s.p[pg.val].getLsbD e = true → Readable s pg rn m e r) ∧
      t = completeLd3b zt s (loadedBytes s (predicate s pg) (startAddress s rn m)) := by
  constructor
  · intro h
    obtain ⟨m', l, hm, hfeat, hsve, hsp, hload, rfl⟩ := execLd3b_next zt pg rn m.castSucc s t h
    obtain rfl : m = m' := Fin.castSucc_injective _ hm
    obtain ⟨hreads, -⟩ := loadStructures_eq_ok s _ _ l hload
    refine ⟨⟨(available_iff _).mp hfeat, hsve⟩, hsp, fun e r he => (memberReads_iff s pg rn m e r).mp (hreads e r he), ?_⟩
    rw [loadStructures_eq_loadedBytes s _ _ l hload]
  · rintro ⟨⟨hfeat, hsve⟩, hsp, hread, rfl⟩
    exact exec_ld3b_completes zt pg rn m s _ ((available_iff _).mpr hfeat) hsve hsp
      (loadStructures_ok s _ _ fun e r he => (memberReads_iff s pg rn m e r).mpr (hread e r he))

/-- A destination's element after a completed LD3B: the byte read at the address of R83 where the element is active, zero
else (R85, R90). -/
theorem elem_completeLd3b_loadedBytes (zt : Fin 32) (pg : Fin 8) (rn : BaseReg) (m : Fin 31) (s : State) (r : Fin 3)
    (e : Nat) (he : e < s.params.vl / 8) :
    elem (completeLd3b zt s (loadedBytes s (predicate s pg) (startAddress s rn m))).z[(zt.val + r.val) % 32] e =
      if s.p[pg.val].getLsbD e then oracle s (byteAddress s rn m e r) else 0 := by
  rw [elem_completeLd3b_dest, elem_loadedBytes s _ _ r e he, memberByte_startAddress]

/-- No read comes twice: each records its element and member (R45, R90). -/
theorem nodup_readsOf {w : Nat} (s : State) (mask : BitVec w) (a : Dword) : (readsOf s mask a).Nodup := by
  refine List.Nodup.map ?_ ((nodup_loopOrder w).filter _)
  intro p q hpq
  exact Prod.ext (congrArg ReadEvent.e hpq) (congrArg ReadEvent.r hpq)

/-- There are three reads for each active element (R90). -/
theorem length_readsOf {w : Nat} (s : State) (mask : BitVec w) (a : Dword) :
    (readsOf s mask a).length = 3 * activeCount mask := by
  rw [readsOf, List.length_map, length_activePairs]

/-- Settles O10: the checks pass and every active byte is readable, so LD3B completes; its destinations and its reads are those
of `loadedBytes`. -/
theorem ld3bCompletesWithTheDeinterleavedBytes : Obligations.Ld3bCompletesWithTheDeinterleavedBytes := by
  intro zt pg rn m s he hpass hread
  have hnext := (exec_ld3b_eq_next_iff zt pg rn m s _).mpr ⟨he, spCheckFaults_false s rn _ hpass, hread, rfl⟩
  exact ⟨_, readsOf s (predicate s pg) (startAddress s rn m), hnext, elem_completeLd3b_loadedBytes zt pg rn m s,
    writeDests_of_ne s.z zt _, mem_readsOf s (predicate s pg) rn m, nodup_readsOf s _ _, length_readsOf s _ _⟩

/-- Settles O11: the oracle answers the listed byte. -/
theorem ld3bLoadsTheLaunchMemory : Obligations.Ld3bLoadsTheLaunchMemory := by
  intro zt pg rn m s t launch hlisted h r e he
  obtain ⟨-, -, -, rfl⟩ := (exec_ld3b_eq_next_iff zt pg rn m s t).mp h
  rw [elem_completeLd3b_loadedBytes zt pg rn m s r e he]
  split
  next hact => exact oracle_listed s _ _ (hlisted e r he hact)
  next => rfl

/-! ## Inactive elements (R85) -/

/-- Where the parameters answer the same of two contents of the vector registers, an active byte is readable with the one if
it is with the other: neither its address nor the reads before it depend on them (R12, R83). -/
theorem readable_of_helpersAgree_z (s : State) (zs : Vector (BitVec s.params.vl) 32) (pg : Fin 8) (rn : BaseReg) (m : Fin 31)
    (e : Nat) (r : Fin 3) (hagree : HelpersAgree s { s with z := zs }) (h : Readable s pg rn m e r) :
    Readable { s with z := zs } pg rn m e r := by
  obtain ⟨-, -, hfault⟩ := hagree
  exact (hfault _ _ _).trans h

/-- LD3B completes with other vector registers too where the parameters answer the same of them (R85). -/
theorem exec_ld3b_next_of_helpersAgree_z (zt : Fin 32) (pg : Fin 8) (rn : BaseReg) (m : Fin 31) (s t : State)
    (zs : Vector (BitVec s.params.vl) 32) (hagree : HelpersAgree s { s with z := zs })
    (h : exec (.ld3b zt pg rn m.castSucc) s = .next t) :
    ∃ t', exec (.ld3b zt pg rn m.castSucc) { s with z := zs } = .next t' := by
  obtain ⟨⟨hfeat, hsve⟩, hsp, hread, -⟩ := (exec_ld3b_eq_next_iff zt pg rn m s t).mp h
  have ⟨hsveAgree, hspAgree, _⟩ := hagree
  exact ⟨_, (exec_ld3b_eq_next_iff zt pg rn m { s with z := zs } _).mpr
    ⟨⟨hfeat, hsveAgree.trans hsve⟩, (spCheckFaults_congr rn (predicate s pg) hspAgree rfl rfl).trans hsp,
      fun e r he hact => readable_of_helpersAgree_z s zs pg rn m e r hagree (hread e r he hact), rfl⟩⟩

/-- A data abort is of an active element (R85, R104). -/
theorem execLd3b_dataAbort_active (zt : Fin 32) (pg : Fin 8) (rn : BaseReg) (rm : Fin 32) (s : State) (f : FaultInfo)
    (e : Nat) (r : Fin 3) (pc : Dword) (left : State)
    (h : execLd3b zt pg rn rm s = .fault (.dataAbort f e r pc left)) : s.p[pg.val].getLsbD e = true := by
  obtain ⟨m, ab, -, -, -, -, hload, -, rfl, -⟩ := execLd3b_dataAbort zt pg rn rm s f e r pc left h
  obtain ⟨-, hact, -⟩ := loadStructures_eq_error s _ _ ab hload
  exact hact

/-- Settles O13: the elements and the reads of a completed LD3B are those of `loadedBytes`, whose bytes do not depend on the
vector registers; and an aborted one ended at an active element. -/
theorem inactiveElementsAreZeroedAndSkipped : Obligations.InactiveElementsAreZeroedAndSkipped := by
  refine ⟨fun zt pg rn m s t h => ?_, execLd3b_dataAbort_active⟩
  obtain ⟨-, -, -, rfl⟩ := (exec_ld3b_eq_next_iff zt pg rn m s t).mp h
  refine ⟨fun e r he hinact => ?_, ⟨readsOf s (predicate s pg) (startAddress s rn m), rfl, ?_, ?_⟩, fun zs => ⟨?_, ?_⟩⟩
  · rw [elem_completeLd3b_loadedBytes zt pg rn m s r e he, hinact, if_neg Bool.false_ne_true]
  · intro ev hev
    obtain ⟨e, r, -, hact, rfl⟩ := (mem_readsOf s (predicate s pg) rn m ev).mp hev
    exact hact
  · intro e r he hact
    exact (mem_readsOf s (predicate s pg) rn m _).mpr ⟨e, r, he, hact, rfl⟩
  · intro t' h' e r he
    obtain ⟨-, -, -, rfl⟩ := (exec_ld3b_eq_next_iff zt pg rn m { s with z := zs } t').mp h'
    exact (elem_completeLd3b_loadedBytes zt pg rn m { s with z := zs } r e he).trans
      (elem_completeLd3b_loadedBytes zt pg rn m s r e he).symm
  · exact fun hagree => exec_ld3b_next_of_helpersAgree_z zt pg rn m s _ zs hagree h

/-! ## The frame (R91) -/

/-- Settles O14: the state that a completed LD3B leaves is an update of the destinations, `pc`, the history and `draws`. -/
theorem ld3bFrame : Obligations.Ld3bFrame := by
  intro zt pg rn rm s t h
  obtain ⟨m, l, -, -, -, -, -, rfl⟩ := execLd3b_next zt pg rn rm s t h
  exact ⟨completeLd3b_params zt s l, completeLd3b_x zt s l, completeLd3b_sp zt s l, fun _ => rfl,
    toNat_completeLd3b_other zt s l, completeLd3b_dit zt s l, completeLd3b_fault zt s l, completeLd3b_refused zt s l,
    fun _ => rfl, l.events, completeLd3b_events zt s l⟩

/-! ## The addresses of the reads (R44, R89) -/

/-- Two members less than 2^64 bytes from the start address have different addresses (R83, R89). -/
theorem memberAddress_injective (a : Dword) (e e' : Nat) (r r' : Fin 3) (h : 3 * e + r.val < 2 ^ 64)
    (h' : 3 * e' + r'.val < 2 ^ 64) (heq : memberAddress a e r = memberAddress a e' r') : (e, r) = (e', r') := by
  rw [memberAddress_add, memberAddress_add, BitVec.add_right_inj] at heq
  have hnum := congrArg BitVec.toNat heq
  rw [BitVec.toNat_ofNat, BitVec.toNat_ofNat, Nat.mod_eq_of_lt h, Nat.mod_eq_of_lt h'] at hnum
  exact Prod.ext (by simp only; omega) (Fin.ext (by simp only; omega))

/-- Three members for each element (R84). -/
theorem length_loopOrder (n : Nat) : (loopOrder n).length = 3 * n := by
  simp [loopOrder_eq_range]

/-- The reads of some pairs of the loops, in their order, have different addresses where the bytes of all the pairs together
do not fill the address space (R89). -/
theorem nodup_addr_historyAfter {vl : Nat} (s : State) (mask : BitVec (vl / 8)) (a : Dword) (n : Nat)
    (ps : List (Nat × Fin 3)) (hps : ps.Sublist (loopOrder n)) (hn : 3 * n ≤ 2 ^ 64) :
    ((historyAfter s mask a ps).map ReadEvent.addr).Nodup := by
  rw [historyAfter, List.map_map]
  have hsub : (activePairs mask ps).Sublist (loopOrder n) := List.filter_sublist.trans hps
  have hfits : ∀ p ∈ activePairs mask ps, 3 * p.1 + p.2.val < 2 ^ 64 := by
    intro p hp
    have := (mem_loopOrder n p).mp (hsub.subset hp)
    omega
  exact List.Nodup.map_on
    (fun p hp q hq heq => memberAddress_injective a p.1 q.1 p.2 q.2 (hfits p hp) (hfits q hq) heq)
    ((nodup_loopOrder n).sublist hsub)

/-- Some pairs of the loops have at most one read each (R45). -/
theorem length_historyAfter_le {vl : Nat} (s : State) (mask : BitVec (vl / 8)) (a : Dword) (n : Nat)
    (ps : List (Nat × Fin 3)) (hps : ps.Sublist (loopOrder n)) : (historyAfter s mask a ps).length ≤ 3 * n := by
  rw [historyAfter, List.length_map, ← length_loopOrder n]
  exact (List.filter_sublist.trans hps).length_le

/-- A pair of the loops and those before it are the first pairs of the loops (R84). -/
theorem pairsBefore_concat_sublist (n e : Nat) (r : Fin 3) (he : e < n) :
    (pairsBefore e r ++ [(e, r)]).Sublist (loopOrder n) := by
  obtain ⟨post, hp⟩ := loopOrder_at n e r he
  rw [hp, List.append_cons _ _ post]
  exact List.sublist_append_left _ _

/-- With all elements active, all are counted (R90). -/
theorem activeCount_allOnes (w : Nat) : activeCount (BitVec.allOnes w) = w := by
  have hall : (List.range w).filter (active (BitVec.allOnes w)) = List.range w :=
    List.filter_eq_self.mpr fun e he => by simpa [active] using he
  rw [activeCount, hall, List.length_range]

/-- The bytes of a vector of a legal length do not fill the address space (R7). -/
theorem three_mul_le_of_vlLegal (p : Params) (h : p.vlLegal = true) : 3 * (p.vl / 8) ≤ 2 ^ 64 := by
  simp only [Params.vlLegal, decide_eq_true_eq] at h
  omega

/-- Settles O16: the reads of a completed LD3B are those of all pairs of the loops; the reads of an aborted one together with
the one that failed are those of the first of them. -/
theorem readsOfOneLd3bAreDistinct : Obligations.ReadsOfOneLd3bAreDistinct := by
  constructor
  · intro zt pg rn rm s t hlegal h
    obtain ⟨m, l, -, -, -, -, hload, rfl⟩ := execLd3b_next zt pg rn rm s t h
    obtain rfl := loadStructures_eq_loadedBytes s _ _ l hload
    refine ⟨_, completeLd3b_events zt s _,
      nodup_addr_historyAfter s _ _ _ _ (List.Sublist.refl _) (three_mul_le_of_vlLegal s.params hlegal),
      length_historyAfter_le s _ _ _ _ (List.Sublist.refl _), fun hall => ?_⟩
    rw [loadedBytes_events, length_readsOf, predicate, hall, activeCount_allOnes]
  · intro zt pg rn rm s f e r pc left hlegal h
    obtain ⟨m, ab, -, -, -, -, hload, rfl, rfl, rfl, -, rfl⟩ := execLd3b_dataAbort zt pg rn rm s f e r pc left h
    obtain ⟨he, hact, -, hevents, hfault⟩ := loadStructures_eq_error s _ _ ab hload
    have haddr : ab.info.addr = memberAddress (startAddress s rn m) ab.e ab.r := faultIn_addr _ _ _ _ _ hfault
    have hsub := pairsBefore_concat_sublist _ ab.e ab.r he
    have hnodup := nodup_addr_historyAfter s (predicate s pg) (startAddress s rn m) _ _ hsub
      (three_mul_le_of_vlLegal s.params hlegal)
    have hlength := length_historyAfter_le s (predicate s pg) (startAddress s rn m) _ _ hsub
    rw [historyAfter_concat, if_pos hact, ← hevents] at hnodup hlength
    rw [List.map_append, List.nodup_append] at hnodup
    obtain ⟨hbefore, -, hdisjoint⟩ := hnodup
    refine ⟨ab.events, rfl, hbefore, by simpa using hlength, fun hmem => ?_⟩
    exact hdisjoint _ hmem _ (by simp [eventAt, haddr]) rfl

end Sys2Proof.Machine
end

section
/-! PROOFS for `60_exceptions.md`: all the faults of LD3B and what they leave (R100, R107), the data abort (R104, R106), and the
part of `MemFault` that LD3B asks (R105). -/

namespace Sys2Proof.Machine

/-! ## Every fault of LD3B (R100) -/

/-- Settles O29: LD3B raises a fault or is its transfer, which completes or raises one. -/
theorem noInstructionIsRefused : Obligations.NoInstructionIsRefused := by
  intro i s why
  cases i with
  | ld3b zt pg rn rm =>
    rw [exec_ld3b]
    rcases execLd3b_cases zt pg rn rm s with ⟨-, he⟩ | ⟨m, -, -, ⟨k, -, he⟩ | ⟨-, -, he⟩ | ⟨-, -, he⟩⟩
    · exact he ▸ raiseFault_ne_refused _ _ _
    · exact he ▸ raiseFault_ne_refused _ _ _
    · exact he ▸ raiseFault_ne_refused _ _ _
    · rcases ld3bTransfer_cases zt s (predicate s pg) (startAddress s rn m) with ⟨l, -, ht⟩ | ⟨ab, -, ht⟩
      · rw [he, ht]
        nofun
      · rw [he, ht]
        exact raiseFault_ne_refused _ _ _

/-- If LD3B answers a fault, it is one of the four raises of R100: the first two of the state as it is, the others of a state
with free destinations. -/
theorem execLd3b_fault (zt : Fin 32) (pg : Fin 8) (rn : BaseReg) (rm : Fin 32) (s : State) (flt : Fault)
    (h : execLd3b zt pg rn rm s = .fault flt) :
    raiseFault (.undefinedInstruction (encode (.ld3b zt pg rn rm)) s.pc) s = .fault flt ∨
    (∃ k, raiseFault (.sveAccessTrap k s.pc) s = .fault flt) ∨
    (spCheckFaults s rn (predicate s pg) = true ∧
      raiseFault (.spAlignmentFault s.pc s.sp) (freeDests zt s) = .fault flt) ∨
    ∃ m ab, rm = Fin.castSucc m ∧ loadStructures s (predicate s pg) (startAddress s rn m) = .error ab ∧
      raiseFault (.dataAbort ab.info ab.e ab.r s.pc) (freeDests zt (addEvents ab.events s)) = .fault flt := by
  rcases execLd3b_cases zt pg rn rm s with ⟨-, he⟩ | ⟨m, hm, -, ⟨k, -, he⟩ | ⟨-, hc, he⟩ | ⟨-, -, he⟩⟩
  · exact .inl (he.symm.trans h)
  · exact .inr (.inl ⟨k, he.symm.trans h⟩)
  · exact .inr (.inr (.inl ⟨hc, he.symm.trans h⟩))
  · rcases ld3bTransfer_cases zt s (predicate s pg) (startAddress s rn m) with ⟨l, -, ht⟩ | ⟨ab, hab, ht⟩
    · rw [he, ht] at h
      cases h
    · exact .inr (.inr (.inr ⟨m, ab, hm, hab, ht.symm.trans (he.symm.trans h)⟩))

/-! ## What a fault leaves (R107) -/

/-- A state that differs from `s` in the three destinations, in reads added to the history and in the free values used. -/
def KeepsAllButDests (zt : Fin 32) (s u : State) : Prop :=
  ∃ (zs : Vector (BitVec s.params.vl) 32) (evs : List ReadEvent) (k : Nat),
    u = { s with z := zs, events := s.events ++ evs, draws := k } ∧
    ∀ i : Fin 32, (∀ r : Fin 3, i.val ≠ (zt.val + r.val) % 32) → zs[i.val] = s.z[i.val]

theorem keepsAllButDests_self (zt : Fin 32) (s : State) : KeepsAllButDests zt s s :=
  ⟨s.z, [], s.draws, by rw [List.append_nil], fun _ _ => rfl⟩

theorem keepsAllButDests_freeDests_addEvents (zt : Fin 32) (s : State) (evs : List ReadEvent) :
    KeepsAllButDests zt s (freeDests zt (addEvents evs s)) :=
  ⟨_, evs, s.draws + 1, rfl, writeDests_of_ne s.z zt (freeVectors s.draws s.params.vl)⟩

theorem keepsAllButDests_freeDests (zt : Fin 32) (s : State) : KeepsAllButDests zt s (freeDests zt s) := by
  simpa only [addEvents_nil] using keepsAllButDests_freeDests_addEvents zt s []

/-- Whatever fault LD3B answers is raised of a state that keeps all but the destinations, the history and the free values. -/
theorem execLd3b_fault_keeps (zt : Fin 32) (pg : Fin 8) (rn : BaseReg) (rm : Fin 32) (s : State) (flt : Fault)
    (h : execLd3b zt pg rn rm s = .fault flt) :
    ∃ rec u, raiseFault rec u = .fault flt ∧ KeepsAllButDests zt s u := by
  rcases execLd3b_fault zt pg rn rm s flt h with hr | ⟨k, hr⟩ | ⟨-, hr⟩ | ⟨m, ab, -, -, hr⟩
  · exact ⟨_, s, hr, keepsAllButDests_self zt s⟩
  · exact ⟨_, s, hr, keepsAllButDests_self zt s⟩
  · exact ⟨_, _, hr, keepsAllButDests_freeDests zt s⟩
  · exact ⟨_, _, hr, keepsAllButDests_freeDests_addEvents zt s ab.events⟩

/-- Settles O28: a raise sets the fault record of the state it is given, and that state keeps all but the destinations. -/
theorem faultLeavesAllButTheDestinations : Obligations.FaultLeavesAllButTheDestinations := by
  intro zt pg rn rm s flt h
  obtain ⟨rec, u, hraise, zs, evs, k, rfl, hother⟩ := execLd3b_fault_keeps zt pg rn rm s flt h
  rw [raiseFault_eq] at hraise
  injection hraise with hflt
  exact ⟨rec, zs, evs, k, hflt.symm, hother⟩

/-! ## The data abort (R104, R106) -/

/-- What a data abort leaves, written as one update of the state: of the registers only the destinations may change, and the
reads made before the one that failed are in the history (R104, R107). -/
theorem exec_ld3b_aborts_eq (zt : Fin 32) (pg : Fin 8) (rn : BaseReg) (m : Fin 31) (s : State) (ab : Abort) (he : Enabled s)
    (hc : spCheckFaults s rn (predicate s pg) = false)
    (hload : loadStructures s (predicate s pg) (startAddress s rn m) = .error ab) :
    exec (.ld3b zt pg rn m.castSucc) s =
      .fault (.dataAbort ab.info ab.e ab.r s.pc
        { s with
          z := writeDests s.z zt (freeVectors s.draws s.params.vl)
          events := s.events ++ ab.events
          draws := s.draws + 1
          fault := some (.dataAbort ab.info ab.e ab.r s.pc) }) := by
  rw [exec_ld3b_aborts zt pg rn m s ab he hc hload, raiseFault_eq]
  rfl

/-- Where the pairs before a pair all read, each of them reads at its turn. -/
theorem memberReads_of_allReadAfter_pairsBefore {vl : Nat} (s : State) (mask : BitVec (vl / 8)) (a : Dword) (e : Nat)
    (r : Fin 3) (h : AllReadAfter s mask a [] (pairsBefore e r)) (e' : Nat) (r' : Fin 3)
    (hin : (e', r') ∈ pairsBefore e r) : MemberReads s mask a e' r' := by
  obtain ⟨p₁, p₂, hsplit⟩ := List.append_of_mem hin
  obtain ⟨rfl, -⟩ := pairsBefore_split e r p₁ p₂ e' r' hsplit
  exact h _ _ _ hsplit

/-- A load of which some active byte is not readable at its turn ends with an abort. -/
theorem exists_abort_of_not_readable (s : State) (pg : Fin 8) (rn : BaseReg) (m : Fin 31) (e : Nat) (r : Fin 3)
    (he : e < s.params.vl / 8) (hact : s.p[pg.val].getLsbD e = true) (hfail : ¬Readable s pg rn m e r) :
    ∃ ab, loadStructures s (predicate s pg) (startAddress s rn m) = .error ab := by
  rcases loadStructures_cases s (predicate s pg) (startAddress s rn m) with ⟨hreads, -⟩ | ⟨ab, hab, -⟩
  · exact absurd ((memberReads_iff s pg rn m e r).mp (hreads e r he) hact) hfail
  · exact ⟨ab, hab⟩

/-- The reads recorded at an abort are of active bytes of the vector, each readable at its turn (R104, R105). -/
theorem abort_events_readable (s : State) (pg : Fin 8) (rn : BaseReg) (m : Fin 31) (ab : Abort)
    (hload : loadStructures s (predicate s pg) (startAddress s rn m) = .error ab) (ev : ReadEvent) (hev : ev ∈ ab.events) :
    ∃ e r, e < s.params.vl / 8 ∧ s.p[pg.val].getLsbD e = true ∧ Readable s pg rn m e r ∧ ev = byteEvent s rn m e r := by
  obtain ⟨he, -, hreads, hevents, -⟩ := loadStructures_eq_error s _ _ ab hload
  rw [hevents, mem_historyAfter] at hev
  obtain ⟨e, r, hin, hact, rfl⟩ := hev
  have hread := memberReads_of_allReadAfter_pairsBefore s _ _ ab.e ab.r hreads e r hin
  have hbefore := (mem_pairsBefore ab.e ab.r e r).mp hin
  exact ⟨e, r, by omega, hact, (memberReads_iff s pg rn m e r).mp hread hact, rfl⟩

/-- Settles O26: the load does not complete, so it ends with an abort, and `loadStructures_eq_error` says where and why. -/
theorem failingActiveByteAborts : Obligations.FailingActiveByteAborts := by
  intro zt pg rn m s e₀ r₀ hen hpass he₀ hact₀ hfail
  obtain ⟨ab, hload⟩ := exists_abort_of_not_readable s pg rn m e₀ r₀ he₀ hact₀ hfail
  obtain ⟨he, hact, -, -, hfault⟩ := loadStructures_eq_error s _ _ ab hload
  rw [memberAddress_startAddress] at hfault
  exact ⟨ab.info, ab.e, ab.r, _, ab.events, he, hact, hfault, faultIn_addr _ _ _ _ _ hfault,
    exec_ld3b_aborts_eq zt pg rn m s ab hen (spCheckFaults_false s rn _ hpass) hload, writeDests_of_ne s.z zt _,
    abort_events_readable s pg rn m ab hload⟩

/-- Settles O27: the bytes before the failing one in loop order all read, so the load ends there with their reads. -/
theorem firstFailingByteIsReported : Obligations.FirstFailingByteIsReported := by
  intro zt pg rn m s e r f hen hpass he hact hfault hbefore
  have hreads : AllReadAfter s (predicate s pg) (startAddress s rn m) [] (pairsBefore e r) :=
    allReadAfter_pairsBefore s _ _ e r fun e' r' hlt => (memberReads_iff s pg rn m e' r').mpr (hbefore e' r' hlt)
  rw [← stateAtRead_eq, ← memberAddress_startAddress] at hfault
  have hload := loadStructures_error s _ _ e r f he hact hreads hfault
  refine ⟨_, exec_ld3b_aborts_eq zt pg rn m s _ hen (spCheckFaults_false s rn _ hpass) hload, _, rfl, fun ev => ?_⟩
  simp only [mem_historyAfter, mem_pairsBefore]
  rfl

/-! ## What LD3B asks of `MemFault` (R105) -/

/-- Another `MemFault` that faults none of the reads of a completed load, each in the state with the reads before it, loads the
same: no other access is asked of (R85, R105). -/
theorem loadStructures_withMemFault {vl : Nat} (s : State) (mask : BitVec (vl / 8)) (a : Dword) (l : Loaded vl)
    (other : List FaultRegion) (hload : loadStructures s mask a = .ok l)
    (hother : ∀ pre ev post, l.events = pre ++ ev :: post →
      memFault (withMemFault other (addEvents pre s)) ev.addr ev.acc = none) :
    loadStructures (withMemFault other s) mask a = .ok l := by
  obtain rfl := loadStructures_eq_loadedBytes s mask a l hload
  have hreads : AllReadAfter (withMemFault other s) mask a [] (loopOrder (vl / 8)) :=
    (allReadAfter_iff (withMemFault other s) mask a _).mpr hother
  rw [loadStructures_ok _ mask a ((allReadAfter_loopOrder _ mask a).mp hreads)]
  exact congrArg _ (loadedBytes_congr s mask a (withMemFault other s) (fun _ => rfl) fun _ => rfl)

/-- LD3B completes with the same next state under another `MemFault` that faults none of its reads (R105). -/
theorem exec_ld3b_next_withMemFault (zt : Fin 32) (pg : Fin 8) (rn : BaseReg) (m : Fin 31) (s : State)
    (l : Loaded s.params.vl) (other : List FaultRegion) (hfeat : s.params.features.available = true)
    (hsve : sveCheck s = .pass) (hsp : spCheckFaults s rn (predicate s pg) = false)
    (hload : loadStructures s (predicate s pg) (startAddress s rn m) = .ok l)
    (hother : ∀ pre ev post, l.events = pre ++ ev :: post →
      memFault (withMemFault other (addEvents pre s)) ev.addr ev.acc = none) :
    exec (.ld3b zt pg rn m.castSucc) (withMemFault other s) = .next (withMemFault other (completeLd3b zt s l)) :=
  exec_ld3b_completes zt pg rn m (withMemFault other s) l hfeat
    ((congrArg (sveOutcomeOf s.params.sveCheck) (view_withMemFault other s)).trans hsve)
    ((spCheckFaults_congr rn (predicate s pg)
      (congrArg (StateCond.holds s.params.spAlignCheck) (view_withMemFault other s)) rfl rfl).trans hsp)
    (loadStructures_withMemFault s (predicate s pg) (startAddress s rn m) l other hload hother)

/-- With no element active, the stack-pointer check faults only with base SP and the free Boolean true (R11, R82). -/
theorem base_and_draw_of_spCheckFaults_inactive {w : Nat} (s : State) (rn : BaseReg)
    (h : spCheckFaults s rn (0 : BitVec w) = true) : rn = .sp ∧ Config.checkSpNoneActive s.draws = true := by
  cases rn with
  | x n =>
    rw [spCheckFaults_x] at h
    cases h
  | sp =>
    rw [spCheckFaults_sp_inactive, Bool.and_eq_true] at h
    obtain ⟨-, hdraw⟩ := h
    exact ⟨rfl, hdraw⟩

/-- The faults that LD3B can raise with no element active (R105). -/
theorem execLd3b_fault_inactive (zt : Fin 32) (pg : Fin 8) (rn : BaseReg) (rm : Fin 32) (s : State) (flt : Fault)
    (hp : s.p[pg.val] = 0) (h : execLd3b zt pg rn rm s = .fault flt) :
    (∃ w pc left, flt = .undefinedInstruction w pc left) ∨ (∃ k pc left, flt = .sveAccessTrap k pc left) ∨
    (∃ pc sp left, flt = .spAlignmentFault pc sp left ∧ rn = .sp ∧ Config.checkSpNoneActive s.draws = true) := by
  rcases execLd3b_fault zt pg rn rm s flt h with hr | ⟨k, hr⟩ | ⟨hc, hr⟩ | ⟨m, ab, -, hab, -⟩
  · cases hr
    exact .inl ⟨_, _, _, rfl⟩
  · cases hr
    exact .inr (.inl ⟨_, _, _, rfl⟩)
  · cases hr
    rw [predicate, hp] at hc
    exact .inr (.inr ⟨_, _, _, rfl, base_and_draw_of_spCheckFaults_inactive s rn hc⟩)
  · rw [loadStructures_inactive s (predicate s pg) (startAddress s rn m) hp] at hab
    cases hab

/-- Settles O19: the reads of a load are of active elements, `exec_ld3b_next_withMemFault` says that no other access matters to
it, and `execLd3b_fault_inactive` names the faults that no read of memory raises. -/
theorem inactiveElementsNeverFault : Obligations.InactiveElementsNeverFault := by
  refine ⟨fun zt pg rn rm s t h => ?_, fun zt pg rn rm s f e r pc left h => ?_, execLd3b_fault_inactive⟩
  · obtain ⟨m, l, rfl, hfeat, hsve, hsp, hload, rfl⟩ := execLd3b_next zt pg rn rm s t h
    obtain ⟨-, hevents, -⟩ := loadStructures_eq_ok s _ _ l hload
    refine ⟨l.events, completeLd3b_events zt s l, fun ev hev => ?_, fun other hother => ?_⟩
    · rw [hevents, mem_readsOf] at hev
      obtain ⟨e, r, -, hact, rfl⟩ := hev
      exact hact
    · exact exec_ld3b_next_withMemFault zt pg rn m s l other hfeat hsve hsp hload hother
  · refine ⟨execLd3b_dataAbort_active zt pg rn rm s f e r pc left h, ?_⟩
    obtain ⟨m, ab, -, -, -, -, hload, -, -, -, -, rfl⟩ := execLd3b_dataAbort zt pg rn rm s f e r pc left h
    refine ⟨ab.events, rfl, fun ev hev => ?_⟩
    obtain ⟨e', r', -, hact, -, rfl⟩ := abort_events_readable s pg rn m ab hload ev hev
    exact hact

end Sys2Proof.Machine
end

section
/-! PROOFS for `70_reset_and_hazards.md`: the fetch and the step at each address (R134), the placed word (log 21), the invariant
at reset and launch (R130), and the end of every run (R134). -/

namespace Sys2Proof.Machine

/-! ## What a step fetches (R55, R134) -/

/-- At the address after the text the run has ended (R134). -/
theorem fetch_textAddress_length (p : Params) : fetch p (textAddress p p.text.length) = .ended := by
  rw [fetch, endAddress_eq, if_pos rfl]

/-- The address of a word is not the one after the text, if the text does not fill the whole address space. -/
theorem textAddress_ne_endAddress (p : Params) (k : Nat) (hlen : 4 * p.text.length < 2 ^ 64) (hk : k < p.text.length) :
    textAddress p k ≠ endAddress p := by
  intro h
  have hoff : BitVec.ofNat 64 (4 * k) = BitVec.ofNat 64 (4 * p.text.length) := BitVec.add_right_inj _ |>.mp h
  have hnat := congrArg BitVec.toNat hoff
  simp only [BitVec.toNat_ofNat] at hnat
  omega

/-- At the address of a word of a program that word is fetched (R55). -/
theorem fetch_textAddress (p : Params) (k : Nat) (w : Word) (hp : p.programWf = true) (hlen : 4 * p.text.length < 2 ^ 64)
    (hw : p.text[k]? = some w) : fetch p (textAddress p k) = .word w := by
  obtain ⟨hk, -⟩ := List.getElem?_eq_some_iff.mp hw
  rw [fetch, if_neg (textAddress_ne_endAddress p k hlen hk), wordAt_textAddress p hp k hk, hw]

/-- At any other address there is nothing to fetch (R134). -/
theorem fetch_eq_nothing (p : Params) (pc : Dword) (h : ∀ k, k ≤ p.text.length → pc ≠ textAddress p k) :
    fetch p pc = .nothing := by
  have hword : wordAt p pc = none := by
    rw [Option.eq_none_iff_forall_ne_some]
    intro w hw
    obtain ⟨k, hk, hpc, -⟩ := wordAt_some p pc w hw
    exact h k hk.le hpc
  rw [fetch, endAddress_eq, if_neg (h _ le_rfl), hword]

/-! ## A step at a word that decodes (R67, R134) -/

/-- A step at a word that decodes is the meaning of its instruction. -/
theorem step_eq_exec (s : State) (w : Word) (i : Instr) (hruns : RunsWord s w)
    (hd : decode s.params.features w = .instr i) : step s = exec i s := by
  obtain ⟨hfault, hrefused, hvl, hfetch⟩ := hruns
  rw [step_word s w hfault hrefused hvl hfetch, runWord, hd]

/-- Settles O34: the word at `pc` is the one fetched, and only well-formed instructions are decoded. -/
theorem stepRunsTheDecodedInstruction : Obligations.StepRunsTheDecodedInstruction := by
  intro s k w i hfault hrefused hvl hp hlen hw hpc hd
  have hfetch : fetch s.params s.pc = .word w := hpc ▸ fetch_textAddress s.params k w hp hlen hw
  obtain ⟨-, hwf, -⟩ := (decode_eq_instr_iff s.params.features w i).mp hd
  exact ⟨step_eq_exec s w i ⟨hfault, hrefused, hvl, hfetch⟩ hd, hwf⟩

/-! ## Where there is no step (R134, U18) -/

/-- A set fault record is answered again (R28, R108). -/
theorem step_of_fault (s : State) (rec : FaultRecord) (h : s.fault = some rec) : step s = .fault (faultOf rec s) := by
  rw [step, cycle, h]

/-- A machine that has refused refuses again (R28). -/
theorem step_of_refused (s : State) (hfault : s.fault = none) (hrefused : s.refused = true) :
    step s = .refused (.alreadyRefused s) := by
  rw [step, cycle, hfault, hrefused]
  rfl

/-- A machine that has not stopped fetches at `pc`. -/
theorem step_eq_runPc (s : State) (hfault : s.fault = none) (hrefused : s.refused = false) : step s = runPc s := by
  rw [step, cycle, hfault, hrefused]
  rfl

/-- The vector lengths that are run are the positive multiples of 8 (R7). -/
theorem vlUsable_iff (p : Params) : p.vlUsable = true ↔ p.vl % 8 = 0 ∧ 0 < p.vl := by
  rw [Params.vlUsable, decide_eq_true_iff]

/-- Settles O36: the marks are asked for first, then the vector length, then what stands at `pc`. -/
theorem whereThereIsNoStep : Obligations.WhereThereIsNoStep := by
  refine ⟨step_of_fault, step_of_refused, fun s hfault hrefused hvl => ?_, fun s hfault hrefused hvl hpc => ?_,
    fun s hfault hrefused hvl hpc => ?_⟩
  · rw [← vlUsable_iff] at hvl
    rw [step_eq_runPc s hfault hrefused, runPc, if_neg hvl]
  · rw [step_eq_runPc s hfault hrefused, runPc, if_pos hvl, hpc, fetch_textAddress_length]
  · rw [step_eq_runPc s hfault hrefused, runPc, if_pos hvl, fetch_eq_nothing s.params s.pc hpc]
    rfl

/-! ## The placed word (R13, R42; log 21) -/

/-- The bytes of a whole word make that word again (R42). -/
theorem tableWord_toNat (w : Word) : tableWord 32 w.toNat = w := by
  have hw : BitVec.ofNat 32 (w.toNat % 2 ^ 32) = w := by
    rw [Nat.mod_eq_of_lt w.isLt, BitVec.ofNat_toNat, BitVec.setWidth_eq]
  rw [tableWord, hw]
  exact wordOfBytes_wordBytes w

/-- Clearing the two low bits of an address gives a multiple of 4. -/
theorem clearLowBits_toNat_mod (a : Dword) : (a &&& ~~~3#64).toNat % 4 = 0 := by
  rw [BitVec.toNat_and, show (4 : Nat) = 2 ^ 2 from rfl, Nat.and_mod_two_pow]
  exact Nat.and_zero _

/-- The one-word program of a launch is well formed (R134): an address that is a multiple of 4 has room for one word. -/
theorem launchWord_programWf (w : Word) (s : State) : (launchWord w s).params.programWf = true := by
  have hmod := clearLowBits_toNat_mod s.pc
  have hlt := (s.pc &&& ~~~3#64).isLt
  rw [Params.programWf, decide_eq_true_iff, launchWord_textBase, launchWord_text, List.length_singleton]
  omega

/-- After `launchWord` the machine runs the word placed, as the first of its text. -/
theorem launchWord_runsWord (w : Word) (s : State) (hvl : s.params.vlUsable = true) : RunsWord (launchWord w s) w := by
  have hpc : (launchWord w s).pc = textAddress (launchWord w s).params 0 := (BitVec.add_zero _).symm
  refine ⟨launchWord_fault w s, launchWord_refused w s, hvl, ?_⟩
  rw [hpc]
  exact fetch_textAddress _ 0 w (launchWord_programWf w s) (by rw [launchWord_text, List.length_singleton]; decide) rfl

/-- Settles O41: the word placed is fetched, and the features it is decoded under are those of the state before. -/
theorem placedWordIsTheNextRun : Obligations.PlacedWordIsTheNextRun := by
  intro s w i hvl hd
  rw [State.withFetchWord, tableWord_toNat]
  exact step_eq_exec _ w i (launchWord_runsWord w s hvl) hd

/-! ## Reset and launch (R130, R134) -/

/-- The first word stands at `TextBase` (R134). -/
theorem textAddress_zero (p : Params) : textAddress p 0 = p.textBase := BitVec.add_zero _

/-- The machine at reset is at the launch of a program of no word (log 2). -/
theorem launch_reset : Launch State.reset := ⟨by decide, rfl, rfl, rfl, rfl⟩

/-- At a launch `pc` is the address of the first word, and there is no read yet. -/
theorem Launch.inv {s : State} (h : Launch s) (hvl : s.params.vlUsable = true) (hmem : s.mem.wf = true) : Inv s := by
  obtain ⟨hprogram, hpc, hfault, hevents, hrefused⟩ := h
  exact
    { vl := hvl
      program := hprogram
      mem := hmem
      fault := hfault
      refused := hrefused
      pc := ⟨0, Nat.zero_le _, hpc.trans (textAddress_zero s.params).symm⟩
      events := by simp [hevents] }

/-- Settles O39: reset is a launch state. -/
theorem invariantHoldsAtResetAndLaunch : Obligations.InvariantHoldsAtResetAndLaunch :=
  ⟨launch_reset.inv (by decide) Memory.wf_nil, launch_reset, fun _ h hvl hmem => h.inv hvl hmem⟩

/-! ## The end of every run (R134) -/

/-- The run has come to the `k`-th word of the text `p`, or to its end, and has stopped neither with a fault nor with a
refusal. -/
structure RunAt (p : Params) (k : Nat) (s : State) : Prop where
  params : s.params = p
  bound : k ≤ p.text.length
  pc : s.pc = textAddress p k
  fault : s.fault = none
  refused : s.refused = false

/-- A launch is at the first word. -/
theorem Launch.runAt {s : State} (h : Launch s) : RunAt s.params 0 s := by
  obtain ⟨-, hpc, hfault, -, hrefused⟩ := h
  exact ⟨rfl, Nat.zero_le _, hpc.trans (textAddress_zero s.params).symm, hfault, hrefused⟩

/-- A step that completes goes on to the next word: at the end of the text no word is fetched. -/
theorem RunAt.step_next {p : Params} {k : Nat} {s t : State} (h : RunAt p k s) (hstep : step s = .next t) :
    RunAt p (k + 1) t := by
  obtain ⟨rfl, hbound, hpc, hfault, hrefused⟩ := h
  obtain ⟨-, -, -, w, i, hfetch, -, hexec⟩ := Machine.step_next s t hstep
  obtain ⟨hparams, -⟩ := exec_next_params_mem i s t hexec
  obtain ⟨hfault', hrefused'⟩ := exec_next_fault_refused i s t hexec
  obtain ⟨hnotEnd, -⟩ := fetch_word s.params s.pc w hfetch
  have hne : k ≠ s.params.text.length := by
    rintro rfl
    exact hnotEnd hpc
  exact
    { params := hparams
      bound := Nat.lt_of_le_of_ne hbound hne
      pc := by rw [exec_next_pc i s t hexec, hpc, nextPc_textAddress]
      fault := hfault'.trans hfault
      refused := hrefused'.trans hrefused }

/-- A run of `k` steps that completes goes on by `k` words. -/
theorem RunAt.run_next {p : Params} {j : Nat} {s t : State} (k : Nat) (h : RunAt p j s)
    (hrun : Sys2Proof.core.run k s = .next t) : RunAt p (j + k) t := by
  induction k generalizing j s with
  | zero =>
    rw [run_zero] at hrun
    cases hrun
    exact h
  | succ k ih =>
    obtain ⟨u, hstep, hrest⟩ := run_succ_inv k s t hrun
    rw [← Nat.succ_add_eq_add_succ]
    exact ih (h.step_next hstep) hrest

/-- At the end of the text the run is final. -/
theorem RunAt.final {p : Params} {s : State} (h : RunAt p p.text.length s) : Final s := by
  obtain ⟨rfl, -, hpc, hfault, hrefused⟩ := h
  exact ⟨hpc, hfault, hrefused⟩

/-- Settles O40: a launch is at the first word, and every step that completes goes on to the next. -/
theorem everyRunEndsWithinItsText : Obligations.EveryRunEndsWithinItsText := by
  intro s t k hlaunch hrun
  have hat : RunAt s.params k t := Nat.zero_add k ▸ hlaunch.runAt.run_next k hrun
  refine ⟨hat.bound, hat.pc, hat.fault, hat.refused, fun hk => ?_⟩
  subst hk
  exact hat.final

end Sys2Proof.Machine
end
